-- ==== Sys2Proof/Word.lean ====
section
/-!
DEFINITION. The words of the machine (spec 00_scope R5, R6). A word is a mathematical integer and an address is a
natural number; neither has a width, so nothing is ever truncated, extended or wrapped (41_arithmetic R82). They are
written `Int` and `Nat` as they stand, so that Lean's arithmetic procedures see them.
-/
namespace Sys2Proof

/-- A sequence of words: a program, a stream, the cells of an instruction (10_state R17, R18, 30_encoding R64). -/
abbrev Words := List Int

end Sys2Proof
end

