-- ==== Sys2Proof/Config.lean ====
section
/-!
DEFINITION. The parameters the spec fixes (00_scope R5, 10_state R22, 20_memory R31, R39). The machine has no
implementation-defined value and no open value (93_implementation_defined, end of Part 1), so nothing here is opaque.
-/
namespace Sys2Proof

/-- What a cell holds that nothing has written (20_memory R31: exactly 0). -/
abbrev Config.unwrittenCell : Int := 0

/-- The address at which `load` places word 0 of a program (20_memory R39). -/
abbrev Config.loadBase : Nat := 0

/-- `pc` after reset and after `load`: the entry point (20_memory R39, 10_state R22). -/
abbrev Config.entryPoint : Int := 0

/-- `rb` after reset and after `load` (10_state R13 (e), R22). -/
abbrev Config.resetBase : Int := 0

/-- How many cells the longest instruction occupies (00_scope R5: lengths 1, 2, 3 or 4). -/
abbrev Config.maxLength : Nat := 4

end Sys2Proof
end

