-- ==== Sys2Proof/Syntax.lean ====
section
/-!
DEFINITION. The instructions (spec 30_encoding R53, R54, R58): one constructor of `Instr` per row of
spec/opcode_table.json. An instruction carries its operands, each a mode and the raw operand word that follows the
instruction word in memory (assumption log 6).
-/
namespace Sys2Proof

/-- The three addressing modes (R54). -/
inductive Mode where
  /-- Digit 0: the operand word is an address. -/
  | positional
  /-- Digit 1: the operand word is the value itself. -/
  | immediate
  /-- Digit 2: the operand word plus `rb` is an address. -/
  | relative
deriving DecidableEq, Repr

/-- One operand: its mode digit and its operand word (R50, R54). The role, read or written, is fixed by the opcode
(R58), so a written operand may be in immediate mode: it decodes, and the write faults (R62). -/
structure Operand where
  mode : Mode
  word : Int
deriving DecidableEq, Repr

/-- The ten opcodes (R53). -/
inductive Opcode where
  | add | mul | input | output | jnz | jz | lt | eq | arb | hlt
deriving DecidableEq, Repr

/-- The ten instructions (R53), with the operands in operand order. -/
inductive Instr where
  /-- Opcode 1, Add: `d := s0 + s1`. -/
  | add (s0 s1 d : Operand)
  /-- Opcode 2, Multiply: `d := s0 * s1`. -/
  | mul (s0 s1 d : Operand)
  /-- Opcode 3, Input (mnemonic IN): `d :=` the head of the input queue. -/
  | input (d : Operand)
  /-- Opcode 4, Output (mnemonic OUT): append `s` to the output sink. -/
  | output (s : Operand)
  /-- Opcode 5, Jump-If-True: to `t` when `c` is not zero. -/
  | jnz (c t : Operand)
  /-- Opcode 6, Jump-If-False: to `t` when `c` is zero. -/
  | jz (c t : Operand)
  /-- Opcode 7, Less-Than: `d := 1` when `s0 < s1`, else 0. -/
  | lt (s0 s1 d : Operand)
  /-- Opcode 8, Equals: `d := 1` when `s0 = s1`, else 0. -/
  | eq (s0 s1 d : Operand)
  /-- Opcode 9, Adjust-Relative-Base: `rb := rb + s`. -/
  | arb (s : Operand)
  /-- Opcode 99, Halt. -/
  | hlt
deriving DecidableEq, Repr

/-- Why the decoder gives a word no meaning (R60). -/
inductive Illegal where
  /-- The word is negative, or its two low digits are none of the ten opcodes (R56, R57). -/
  | unknownOpcode
  /-- The mode digit of operand `operand` is `digit`, 3 to 9 (R54). -/
  | invalidMode (operand digit : Nat)
deriving DecidableEq, Repr

/-- What the decoder reads from the instruction word alone (R60): the opcode and the mode of each operand. A mode the
opcode has no operand for is `positional` and means nothing. -/
structure Decoded where
  op : Opcode
  m0 : Mode
  m1 : Mode
  m2 : Mode
deriving DecidableEq, Repr

end Sys2Proof
end

