-- ==== Sys2Proof/WellFormed.lean ====
section
/-!
DEFINITION. Well-formed instructions. The types leave one thing to check: an instruction that writes an operand must
not write it in immediate mode (spec 30_encoding R62, 40_operands R74). An instruction that fails the check still
decodes and still has its meaning, which raises InvalidWriteTarget (assumption log 10): the check separates the class
'legal' of R62 from the class 'immediate write target', and no statement about decoding assumes it.
-/
namespace Sys2Proof

/-- The operand an instruction writes, with its index: operand 0 for Input, the last one for the other
write-producing instructions (30_encoding R58). -/
def Instr.writeOperand? : Instr → Option (Nat × Operand)
  | .add _ _ d => some (2, d)
  | .mul _ _ d => some (2, d)
  | .input d => some (0, d)
  | .output _ => none
  | .jnz _ _ => none
  | .jz _ _ => none
  | .lt _ _ d => some (2, d)
  | .eq _ _ d => some (2, d)
  | .arb _ => none
  | .hlt => none

/-- The operand can be written through: its mode is not immediate (40_operands R73, R74). -/
def Operand.isTarget (o : Operand) : Bool :=
  match o.mode with
  | .positional => true
  | .immediate => false
  | .relative => true

/-- The instruction has no immediate write target: the class 'legal' of 30_encoding R62. -/
def Instr.wellFormed (i : Instr) : Bool :=
  match i.writeOperand? with
  | some (_, d) => d.isTarget
  | none => true

end Sys2Proof
end

