-- ==== Sys2Proof/Decode.lean ====
section
/-!
DEFINITION. The decoder (spec 30_encoding R50 to R62), total on every integer and on every list of words, and the
encoder written from the canonical encoding of R65.
-/
namespace Sys2Proof

/-- Decimal digit `k` of `v`, counted from the units digit (00_scope R7). -/
def dig (v k : Nat) : Nat := v / 10 ^ k % 10

/-- The opcode an opcode field names, if it is one of the ten (30_encoding R53, R57). -/
def Opcode.ofNumber? (n : Nat) : Option Opcode :=
  match n with
  | 1 => some .add
  | 2 => some .mul
  | 3 => some .input
  | 4 => some .output
  | 5 => some .jnz
  | 6 => some .jz
  | 7 => some .lt
  | 8 => some .eq
  | 9 => some .arb
  | 99 => some .hlt
  | _ => none

/-- The number of an opcode (R53). -/
def Opcode.number : Opcode → Nat
  | .add => 1
  | .mul => 2
  | .input => 3
  | .output => 4
  | .jnz => 5
  | .jz => 6
  | .lt => 7
  | .eq => 8
  | .arb => 9
  | .hlt => 99

/-- `N`, the operand count of an opcode (R53). -/
def Opcode.operandCount : Opcode → Nat
  | .add => 3
  | .mul => 3
  | .input => 1
  | .output => 1
  | .jnz => 2
  | .jz => 2
  | .lt => 3
  | .eq => 3
  | .arb => 1
  | .hlt => 0

/-- `LEN = 1 + N`, the cells an instruction occupies (R50, R59). -/
def Opcode.length (op : Opcode) : Nat := 1 + op.operandCount

/-- The mode a mode digit names: 0, 1 and 2 only (R54). -/
def Mode.ofDigit? (d : Nat) : Option Mode :=
  match d with
  | 0 => some .positional
  | 1 => some .immediate
  | 2 => some .relative
  | _ => none

/-- The digit of a mode (R54). -/
def Mode.digit : Mode → Nat
  | .positional => 0
  | .immediate => 1
  | .relative => 2

/-- The mode of operand `k`: digit `2 + k` when the opcode has such an operand (R51, R54); a digit the opcode has no
operand for is not examined (R55). -/
def modeOf (v : Nat) (op : Opcode) (k : Nat) : Except Illegal Mode :=
  if k < op.operandCount then
    match Mode.ofDigit? (dig v (2 + k)) with
    | some m => .ok m
    | none => .error (.invalidMode k (dig v (2 + k)))
  else .ok .positional

/-- `Decode(w)` (R60): negative words first (R56), then the opcode (R57), then the mode digits, lowest operand
first (R54). -/
def decodeWord (w : Int) : Except Illegal Decoded :=
  if w < 0 then .error .unknownOpcode
  else
    match Opcode.ofNumber? (w.toNat % 100) with
    | none => .error .unknownOpcode
    | some op =>
      match modeOf w.toNat op 0 with
      | .error e => .error e
      | .ok m0 =>
        match modeOf w.toNat op 1 with
        | .error e => .error e
        | .ok m1 =>
          match modeOf w.toNat op 2 with
          | .error e => .error e
          | .ok m2 => .ok { op := op, m0 := m0, m1 := m1, m2 := m2 }

/-- The instruction a decoded word makes with its operand words (R50, R58). -/
def Decoded.instr (d : Decoded) (o0 o1 o2 : Int) : Instr :=
  match d.op with
  | .add => .add ⟨d.m0, o0⟩ ⟨d.m1, o1⟩ ⟨d.m2, o2⟩
  | .mul => .mul ⟨d.m0, o0⟩ ⟨d.m1, o1⟩ ⟨d.m2, o2⟩
  | .input => .input ⟨d.m0, o0⟩
  | .output => .output ⟨d.m0, o0⟩
  | .jnz => .jnz ⟨d.m0, o0⟩ ⟨d.m1, o1⟩
  | .jz => .jz ⟨d.m0, o0⟩ ⟨d.m1, o1⟩
  | .lt => .lt ⟨d.m0, o0⟩ ⟨d.m1, o1⟩ ⟨d.m2, o2⟩
  | .eq => .eq ⟨d.m0, o0⟩ ⟨d.m1, o1⟩ ⟨d.m2, o2⟩
  | .arb => .arb ⟨d.m0, o0⟩
  | .hlt => .hlt

/-- The instruction at the front of a list of words (R50). A word the list does not hold is an unwritten cell and
reads 0 (40_operands R70; assumption log 6). -/
def decode (ws : Words) : Except Illegal Instr :=
  match decodeWord (ws.getD 0 Config.unwrittenCell) with
  | .error e => .error e
  | .ok d =>
    .ok (d.instr (ws.getD 1 Config.unwrittenCell) (ws.getD 2 Config.unwrittenCell) (ws.getD 3 Config.unwrittenCell))

/-- The opcode of an instruction (R53). -/
def Instr.opcode : Instr → Opcode
  | .add _ _ _ => .add
  | .mul _ _ _ => .mul
  | .input _ => .input
  | .output _ => .output
  | .jnz _ _ => .jnz
  | .jz _ _ => .jz
  | .lt _ _ _ => .lt
  | .eq _ _ _ => .eq
  | .arb _ => .arb
  | .hlt => .hlt

/-- The operands of an instruction, in operand order (R58). -/
def Instr.operands : Instr → List Operand
  | .add a b d => [a, b, d]
  | .mul a b d => [a, b, d]
  | .input d => [d]
  | .output s => [s]
  | .jnz c t => [c, t]
  | .jz c t => [c, t]
  | .lt a b d => [a, b, d]
  | .eq a b d => [a, b, d]
  | .arb s => [s]
  | .hlt => []

/-- The value of the mode digits, the first operand's digit worth `place` (R65). -/
def modeDigits (place : Nat) : List Operand → Nat
  | [] => 0
  | o :: os => place * o.mode.digit + modeDigits (10 * place) os

/-- The canonical instruction word (R65): the opcode, and the digit of operand `i` at position `2 + i`. -/
def encodeWord (i : Instr) : Int := ((i.opcode.number + modeDigits 100 i.operands : Nat) : Int)

/-- The words of an instruction: its canonical instruction word, then its operand words (R50, R65). -/
def encode (i : Instr) : Words := encodeWord i :: i.operands.map Operand.word

/-- The instruction the decoder reads from the opcode table's word `w`. The table is decimal: its word is the integer
`w` itself, whole in the one instruction cell, whatever bits it takes, and the operand words are 0 (assumption log 8). -/
def decodeTableWord (_nbits w : Nat) : Option Instr :=
  match decode [(w : Int)] with
  | .ok i => some i
  | .error _ => none

end Sys2Proof
end

