-- ==== Sys2Proof/Machine/State.lean ====
section
/-!
DEFINITION. The state of one machine (spec 10_state R10: "exactly this state and no other"), the fatal errors and
their record (60_exceptions R120, R126), the run states (10_state R15), the host's commands (60_exceptions R144), and
the state after reset (10_state R22, 70_reset_and_hazards R150).
-/
namespace Sys2Proof.Machine

/-- The memory (20_memory R30): the cells that hold something else than an unwritten cell reads as, as (address,
content) pairs with strictly rising addresses. The cell is a whole integer, so the pair is not `Host.Cell`
(assumption log 1). -/
abbrev Memory := List (Nat × Int)

/-- The run state (10_state R15). -/
inductive Status where
  /-- No program loaded. -/
  | idle
  /-- A program is loaded and has not run. -/
  | loaded
  /-- A run invocation is performing steps. -/
  | running
  /-- The invocation ended after an Output; `run` resumes it. -/
  | paused
  /-- Halt was executed; terminal. -/
  | halted
  /-- A fatal error was raised; terminal. -/
  | faulted
deriving DecidableEq, Repr

/-- The access that met a negative address (60_exceptions R126). -/
inductive Access where
  /-- The fetch of the instruction word. -/
  | fetch
  /-- The read of operand `i`. -/
  | read (i : Nat)
  /-- The write of operand `i`. -/
  | write (i : Nat)
deriving DecidableEq, Repr

/-- The five fatal errors of the machine, each with what its record holds beside the common fields (60_exceptions
R120, R126). Raising one is a NEXT state of the step, with `status` Faulted (assumption log 2). -/
inductive FatalError where
  /-- R121: the word is negative or its opcode field is none of the ten. -/
  | unknownOpcode
  /-- R122: the write operand, of this index, is in immediate mode. -/
  | invalidWriteTarget (operand : Nat)
  /-- R123: Input with an empty queue. -/
  | blockingInput
  /-- R124: a negative address, and the access that used it. -/
  | invalidAddress (address : Int) (access : Access)
  /-- R128: the mode digit of this operand is 3 to 9. -/
  | invalidMode (operand digit : Nat)
deriving DecidableEq, Repr

/-- The fault record (60_exceptions R126). Code, address, access, operand and digit are read off `kind`. -/
structure FaultRecord where
  kind : FatalError
  /-- `pc` at the start of the faulting step. -/
  pc : Int
  /-- The instruction word, absent when none was fetched. -/
  word : Option Int
  /-- `w mod 100`, present when a word `w >= 0` was fetched. -/
  opcode : Option Nat
deriving DecidableEq, Repr

/-- All the state the spec gives the machine (10_state R10). -/
structure State where
  /-- The one memory, code and data (20_memory R30). -/
  mem : Memory
  /-- The program counter (10_state R12). -/
  pc : Int
  /-- The relative base (10_state R13). -/
  rb : Int
  /-- The input queue, oldest first (10_state R17). -/
  inq : Words
  /-- The output sink, oldest first (10_state R18). -/
  outq : Words
  /-- The run state (10_state R15). -/
  status : Status
  /-- The record of the fatal error, if one was raised (10_state R16). -/
  fault : Option FaultRecord
  /-- "Last instruction was a jump" (10_state R14). -/
  jflag : Bool
  /-- "Last instruction was output" (10_state R14). -/
  oflag : Bool
  /-- The argument of the current run invocation; it exists only inside one (10_state R19, R22). -/
  pauseReq : Option Bool
deriving DecidableEq, Repr

/-- The commands of the host (60_exceptions R133, R144). -/
inductive Command where
  /-- Reset (70_reset_and_hazards R150). -/
  | reset
  /-- `load(program)` (70_reset_and_hazards R151). -/
  | load (program : Words)
  /-- `patch(address, value)` (70_reset_and_hazards R152). -/
  | patch (address value : Int)
  /-- `run(pause_on_output)` (60_exceptions R134). -/
  | run (pauseOnOutput : Bool)
  /-- `feed(value)` (60_exceptions R135). -/
  | feed (value : Int)
  /-- `drain_output()` (60_exceptions R136). -/
  | drain
  /-- Inspection (60_exceptions R141). -/
  | inspect
deriving DecidableEq, Repr

/-- What can end with an error and no next state: nothing, so there is no constructor and no one raises it. The fatal
errors of a run are next states (`FatalError`, 60_exceptions R126), and the error of the command `patch` leaves the
machine usable and is the command's answer (70_reset_and_hazards R152). Safe: no state is lost. -/
inductive Fault
deriving DecidableEq, Repr

/-- What is given no meaning. -/
inductive Refusal where
  /-- An instruction without a meaning yet. Raised by no arm of `exec`: every instruction has its meaning. Safe. -/
  | notModelled (mnemonic : String)
  /-- The host command is not enabled in this run state (60_exceptions R137, R138). Raised by `hostCommand`. Safe: the
  spec gives no transition, and none is claimed. -/
  | commandNotEnabled (command : Command) (status : Status)
deriving DecidableEq, Repr

/-- The machine after reset (10_state R22, 70_reset_and_hazards R150): every value is the spec's. -/
def State.reset : State :=
  { mem := []
    pc := Config.entryPoint
    rb := Config.resetBase
    inq := []
    outq := []
    status := .idle
    fault := none
    jflag := false
    oflag := false
    pauseReq := none }

end Sys2Proof.Machine
end

