-- ==== Sys2Proof/Machine/Ops.lean ====
section
/-!
DEFINITION. The named operations over the state: the memory's read and write (spec 20_memory R31 to R35), the
registers and streams, the two access primitives, and taking a fatal error (60_exceptions R126, R127). There is no
return from a fatal error to stand beside it: Faulted is terminal and only reset leaves it (60_exceptions R129).
-/
namespace Sys2Proof.Machine

/-- The content of a cell: what was written, else 0 (20_memory R31). -/
def Memory.read : Memory → Nat → Int
  | [], _ => Config.unwrittenCell
  | (b, w) :: m, a => if b = a then w else Memory.read m a

/-- Storing a word in a cell; every other cell is unchanged (20_memory R33). Storing what an unwritten cell reads as
removes the pair, so that equal memories are equal lists. -/
def Memory.write : Memory → Nat → Int → Memory
  | [], a, v => if v = Config.unwrittenCell then [] else [(a, v)]
  | (b, w) :: m, a, v =>
    if a < b then
      if v = Config.unwrittenCell then (b, w) :: m else (a, v) :: (b, w) :: m
    else if a = b then
      if v = Config.unwrittenCell then m else (a, v) :: m
    else (b, w) :: Memory.write m a v

/-- The canonical form from address `lo` on: strictly rising addresses, all at least `lo`, no unwritten content. -/
def Memory.wfFrom : Nat → Memory → Bool
  | _, [] => true
  | lo, (a, v) :: m => decide (lo ≤ a) && decide (v ≠ Config.unwrittenCell) && Memory.wfFrom (a + 1) m

/-- The canonical form of a memory. -/
def Memory.wf (m : Memory) : Bool := Memory.wfFrom 0 m

/-- The contents of `n` cells from address `a` on, in rising order (20_memory R36). -/
def Memory.cells (m : Memory) (a : Nat) : Nat → Words
  | 0 => []
  | n + 1 => Memory.read m a :: Memory.cells m (a + 1) n

/-- Storing a list of words from address `a` on (70_reset_and_hazards R151). -/
def Memory.writeList : Memory → Nat → Words → Memory
  | m, _, [] => m
  | m, a, w :: ws => Memory.writeList (Memory.write m a w) (a + 1) ws

/-- `mem` takes a new content. -/
def State.setMem (s : State) (m : Memory) : State := { s with mem := m }

/-- `pc <- v` (00_scope R7). -/
def State.setPc (s : State) (v : Int) : State := { s with pc := v }

/-- `rb <- v` (45_base_halt R100). -/
def State.setRb (s : State) (v : Int) : State := { s with rb := v }

/-- The input queue takes a new content (42_io R85, 60_exceptions R135). -/
def State.setInq (s : State) (q : Words) : State := { s with inq := q }

/-- The output sink takes a new content (42_io R86, 60_exceptions R136). -/
def State.setOutq (s : State) (q : Words) : State := { s with outq := q }

/-- The fault record is written (60_exceptions R126). -/
def State.setFault (s : State) (r : FaultRecord) : State := { s with fault := some r }

/-- The run invocation ends with this status; its argument ceases to exist with it (46_step_cycle R111,
10_state R19). -/
def State.endInvocation (s : State) (st : Status) : State := { s with status := st, pauseReq := none }

/-- `MemRead(a, 1)` (20_memory R32), for the access named. -/
def memRead (a : Int) (access : Access) (s : State) : Except FatalError Int :=
  if a < 0 then .error (.invalidAddress a access) else .ok (Memory.read s.mem a.toNat)

/-- `MemWrite(a, 1, v)` (20_memory R33), for the access named. -/
def memWrite (a : Int) (v : Int) (access : Access) (s : State) : Except FatalError State :=
  if a < 0 then .error (.invalidAddress a access) else .ok (s.setMem (Memory.write s.mem a.toNat v))

/-- The numeric code of a fatal error (60_exceptions R120). -/
def FatalError.code : FatalError → Nat
  | .unknownOpcode => 1
  | .invalidWriteTarget _ => 2
  | .blockingInput => 3
  | .invalidAddress _ _ => 4
  | .invalidMode _ _ => 5

/-- The field `address` of the record: present for InvalidAddress (R126). -/
def FaultRecord.address? (r : FaultRecord) : Option Int :=
  match r.kind with
  | .invalidAddress a _ => some a
  | .unknownOpcode => none
  | .invalidWriteTarget _ => none
  | .blockingInput => none
  | .invalidMode _ _ => none

/-- The field `access` of the record: present for InvalidAddress (R126). -/
def FaultRecord.access? (r : FaultRecord) : Option Access :=
  match r.kind with
  | .invalidAddress _ x => some x
  | .unknownOpcode => none
  | .invalidWriteTarget _ => none
  | .blockingInput => none
  | .invalidMode _ _ => none

/-- The field `operand` of the record: present for InvalidWriteTarget and InvalidMode (R126). -/
def FaultRecord.operand? (r : FaultRecord) : Option Nat :=
  match r.kind with
  | .invalidWriteTarget i => some i
  | .invalidMode i _ => some i
  | .unknownOpcode => none
  | .blockingInput => none
  | .invalidAddress _ _ => none

/-- The field `digit` of the record: present for InvalidMode (R126). -/
def FaultRecord.digit? (r : FaultRecord) : Option Nat :=
  match r.kind with
  | .invalidMode _ d => some d
  | .unknownOpcode => none
  | .invalidWriteTarget _ => none
  | .blockingInput => none
  | .invalidAddress _ _ => none

/-- The instruction word of the current step (00_scope R7: `w = MemRead(pc, 1)`), if the fetch succeeds. -/
def instructionWord (s : State) : Option Int :=
  if s.pc < 0 then none else some (Memory.read s.mem s.pc.toNat)

/-- The opcode field of a fetched word: `w mod 100`, for `w >= 0` only (60_exceptions R126). -/
def opcodeField (w : Option Int) : Option Nat :=
  match w with
  | none => none
  | some v => if v < 0 then none else some (v.toNat % 100)

/-- The record of a fatal error raised in this state (60_exceptions R126; assumption log 5). -/
def faultRecord (e : FatalError) (s : State) : FaultRecord :=
  { kind := e, pc := s.pc, word := instructionWord s, opcode := opcodeField (instructionWord s) }

/-- Taking a fatal error, the machine's one kind of exception (60_exceptions R126, R127): `status` becomes Faulted,
the record is written, the invocation ends; `mem`, `pc`, `rb`, `inq`, `outq` are as they were when the step began. -/
def raiseFatal (e : FatalError) (s : State) : State := (s.setFault (faultRecord e s)).endInvocation .faulted

/-- The decoder's verdict as a fatal error (60_exceptions R121, R128). -/
def fatalOf (x : Illegal) : FatalError :=
  match x with
  | .unknownOpcode => .unknownOpcode
  | .invalidMode i d => .invalidMode i d

end Sys2Proof.Machine
end

