-- ==== Sys2Proof/Machine/Operands.lean ====
section
/-!
DEFINITION. Operand resolution (spec 40_operands R70 to R76): the effective address, reading an operand, writing
through an operand. `i` is the operand's index, kept for the fault record (60_exceptions R126).
-/
namespace Sys2Proof.Machine

/-- `EA` (R72): the operand word in positional mode, the operand word plus `rb` in relative mode; immediate mode has no
effective address. It may be negative; only using it faults. -/
def effectiveAddress (o : Operand) (s : State) : Option Int :=
  match o.mode with
  | .positional => some o.word
  | .immediate => none
  | .relative => some (o.word + s.rb)

/-- `RdOp(i)` (R71). -/
def readOperand (i : Nat) (o : Operand) (s : State) : Except FatalError Int :=
  match effectiveAddress o s with
  | none => .ok o.word
  | some a => memRead a (.read i) s

/-- `WrOp(i, v)` (R73). -/
def writeOperand (i : Nat) (o : Operand) (v : Int) (s : State) : Except FatalError State :=
  match effectiveAddress o s with
  | none => .error (.invalidWriteTarget i)
  | some a => memWrite a v (.write i) s

/-- The shape of opcodes 1, 2, 7 and 8 (R75): read operand 0, read operand 1, compute, write operand 2. -/
def computeToMemory (f : Int → Int → Int) (s0 s1 d : Operand) (s : State) : Except FatalError State :=
  match readOperand 0 s0 s with
  | .error e => .error e
  | .ok a =>
    match readOperand 1 s1 s with
    | .error e => .error e
    | .ok b => writeOperand 2 d (f a b) s

end Sys2Proof.Machine
end

