-- ==== Sys2Proof/Machine/Flags.lean ====
section
/-!
DEFINITION. The two run flags (spec 10_state R14), and the truth value a comparison writes (44_compare R95, R96). The
machine has no condition codes, so no other flag is computed.
-/
namespace Sys2Proof.Machine

/-- Both run flags are cleared: after the decode and before the execute of every step (46_step_cycle R105, 3). -/
def State.clearFlags (s : State) : State := { s with jflag := false, oflag := false }

/-- `jflag <- true`: a taken jump (43_jumps R90, R91). -/
def State.setJflag (s : State) : State := { s with jflag := true }

/-- `oflag <- true`: an Output (42_io R86). -/
def State.setOflag (s : State) : State := { s with oflag := true }

/-- What a comparison writes: exactly 1 or exactly 0 (44_compare R95, R96). -/
def truthWord (b : Bool) : Int := if b then 1 else 0

end Sys2Proof.Machine
end

