-- ==== Sys2Proof/Machine/Cycle.lean ====
section
/-!
DEFINITION. The end of a step (spec 46_step_cycle R105, points 4 to 7): commit or take the fatal error, advance,
pause check.
-/
namespace Sys2Proof.Machine

/-- The sequential advance (R106): `pc <- pc + LEN` unless a taken jump set `jflag` (R107). -/
def advance (op : Opcode) (s : State) : State :=
  if s.jflag then s else s.setPc (s.pc + (op.length : Nat))

/-- The pause check (R108): the invocation ends Paused when a pause was requested and this instruction was Output. -/
def pauseCheck (s : State) : State :=
  if s.pauseReq = some true ∧ s.oflag = true then s.endInvocation .paused else s

/-- Points 4 to 7 of R105 for every instruction but Halt: `s` is the state at the start of the step, `r` what the
instruction's rule made of it. A fatal error commits nothing of the step (R110, R114). -/
def finishStep (op : Opcode) (s : State) (r : Except FatalError State) : Host.Outcome State Fault Refusal :=
  match r with
  | .ok t => .next (pauseCheck (advance op t))
  | .error e => .next (raiseFatal e s)

end Sys2Proof.Machine
end

