-- ==== Sys2Proof/Machine/Arithmetic.lean ====
section
/-!
DEFINITION. Add and Multiply (spec 41_arithmetic R80 to R82): exact arithmetic over ℤ.
-/
namespace Sys2Proof.Machine

/-- Add (R80). -/
def execAdd (s0 s1 d : Operand) (s : State) : Host.Outcome State Fault Refusal :=
  finishStep .add s (computeToMemory (fun a b => a + b) s0 s1 d s.clearFlags)

/-- Multiply (R81). -/
def execMul (s0 s1 d : Operand) (s : State) : Host.Outcome State Fault Refusal :=
  finishStep .mul s (computeToMemory (fun a b => a * b) s0 s1 d s.clearFlags)

end Sys2Proof.Machine
end

