-- ==== Sys2Proof/Machine/BaseHalt.lean ====
section
/-!
DEFINITION. Adjust-Relative-Base and Halt (spec 45_base_halt R100, R101).
-/
namespace Sys2Proof.Machine

/-- The rule of Adjust-Relative-Base (R100): the operand is read with the old `rb`, then added. -/
def adjustBase (o : Operand) (s : State) : Except FatalError State :=
  match readOperand 0 o s with
  | .error e => .error e
  | .ok v => .ok (s.setRb (s.rb + v))

/-- Adjust-Relative-Base (R100). -/
def execArb (o : Operand) (s : State) : Host.Outcome State Fault Refusal :=
  finishStep .arb s (adjustBase o s.clearFlags)

/-- Halt (R101, 46_step_cycle R109): the invocation ends Halted and `pc` is not advanced. -/
def execHlt (s : State) : Host.Outcome State Fault Refusal :=
  .next (s.clearFlags.endInvocation .halted)

end Sys2Proof.Machine
end

