-- ==== Sys2Proof/Machine/Compare.lean ====
section
/-!
DEFINITION. Less-Than and Equals (spec 44_compare R95, R96): the exact order and equality of ℤ.
-/
namespace Sys2Proof.Machine

/-- Less-Than (R95): strict and signed. -/
def execLt (s0 s1 d : Operand) (s : State) : Host.Outcome State Fault Refusal :=
  finishStep .lt s (computeToMemory (fun a b => truthWord (decide (a < b))) s0 s1 d s.clearFlags)

/-- Equals (R96). -/
def execEq (s0 s1 d : Operand) (s : State) : Host.Outcome State Fault Refusal :=
  finishStep .eq s (computeToMemory (fun a b => truthWord (decide (a = b))) s0 s1 d s.clearFlags)

end Sys2Proof.Machine
end

