-- ==== Sys2Proof/Machine/InputOutput.lean ====
section
/-!
DEFINITION. Input and Output (spec 42_io R85, R86).
-/
namespace Sys2Proof.Machine

/-- The rule of Input (R85): the queue is tested first, and its head leaves it only together with the write. -/
def takeInput (d : Operand) (s : State) : Except FatalError State :=
  match s.inq with
  | [] => .error .blockingInput
  | v :: rest =>
    match writeOperand 0 d v s with
    | .error e => .error e
    | .ok t => .ok (t.setInq rest)

/-- The rule of Output (R86). -/
def putOutput (o : Operand) (s : State) : Except FatalError State :=
  match readOperand 0 o s with
  | .error e => .error e
  | .ok v => .ok (s.setOutq (s.outq ++ [v])).setOflag

/-- Input (R85). -/
def execInput (d : Operand) (s : State) : Host.Outcome State Fault Refusal :=
  finishStep .input s (takeInput d s.clearFlags)

/-- Output (R86). -/
def execOutput (o : Operand) (s : State) : Host.Outcome State Fault Refusal :=
  finishStep .output s (putOutput o s.clearFlags)

end Sys2Proof.Machine
end

