-- ==== Sys2Proof/Machine/Jumps.lean ====
section
/-!
DEFINITION. Jump-If-True and Jump-If-False (spec 43_jumps R90 to R92).
-/
namespace Sys2Proof.Machine

/-- The shape of both jumps (R90, R91, 40_operands R75 (c)): read the condition; only when the jump is taken, read the
target, write `pc` and set `jflag`. -/
def jumpWhen (taken : Int → Bool) (c t : Operand) (s : State) : Except FatalError State :=
  match readOperand 0 c s with
  | .error e => .error e
  | .ok v =>
    if taken v then
      match readOperand 1 t s with
      | .error e => .error e
      | .ok target => .ok (s.setPc target).setJflag
    else .ok s

/-- Jump-If-True (R90): taken when the condition is any non-zero integer. -/
def execJnz (c t : Operand) (s : State) : Host.Outcome State Fault Refusal :=
  finishStep .jnz s (jumpWhen (fun v => decide (v ≠ 0)) c t s.clearFlags)

/-- Jump-If-False (R91): taken when the condition is 0. -/
def execJz (c t : Operand) (s : State) : Host.Outcome State Fault Refusal :=
  finishStep .jz s (jumpWhen (fun v => decide (v = 0)) c t s.clearFlags)

end Sys2Proof.Machine
end

