-- ==== Sys2Proof/Machine/Dispatch.lean ====
section
/-!
DEFINITION. The dispatch of spec 46_step_cycle R105, point 4: one arm per instruction.
-/
namespace Sys2Proof.Machine

/-- What a step does once it has decoded instruction `i`: points 3 to 7 of R105. -/
def exec (i : Instr) (s : State) : Host.Outcome State Fault Refusal :=
  match i with
  | .add s0 s1 d => Sys2Proof.Machine.execAdd s0 s1 d s
  | .mul s0 s1 d => Sys2Proof.Machine.execMul s0 s1 d s
  | .input d => Sys2Proof.Machine.execInput d s
  | .output o => Sys2Proof.Machine.execOutput o s
  | .jnz c t => Sys2Proof.Machine.execJnz c t s
  | .jz c t => Sys2Proof.Machine.execJz c t s
  | .lt s0 s1 d => Sys2Proof.Machine.execLt s0 s1 d s
  | .eq s0 s1 d => Sys2Proof.Machine.execEq s0 s1 d s
  | .arb o => Sys2Proof.Machine.execArb o s
  | .hlt => Sys2Proof.Machine.execHlt s

end Sys2Proof.Machine
end

