-- ==== Sys2Proof/Machine/Fetch.lean ====
section
/-!
DEFINITION. The start of a step (spec 46_step_cycle R105, points 1 and 2): fetch and decode. Also when the machine
performs a step at all, and how an instruction is placed where the next step fetches it.
-/
namespace Sys2Proof.Machine

/-- Fetch and decode: InvalidAddress at a negative `pc`, then UnknownOpcode, then InvalidMode (60_exceptions R125, 1 to
3). The operand words are the cells after the instruction word (40_operands R70). -/
def fetchInstr (s : State) : Except FatalError Instr :=
  match memRead s.pc .fetch s with
  | .error e => .error e
  | .ok _ =>
    match decode (Memory.cells s.mem s.pc.toNat Config.maxLength) with
    | .error x => .error (fatalOf x)
    | .ok i => .ok i

/-- The machine performs steps only while Running (46_step_cycle R105, 60_exceptions R133). -/
def performsStep (s : State) : Bool :=
  match s.status with
  | .running => true
  | .idle => false
  | .loaded => false
  | .paused => false
  | .halted => false
  | .faulted => false

/-- Outside Running nothing happens until the host issues a command: all state survives unchanged
(60_exceptions R133, R143; assumption log 3). -/
def awaitHost (s : State) : Host.Outcome State Fault Refusal := .next s

/-- `s` inside a run invocation, with this instruction word and operand words of 0 stored where the next step fetches.
A negative `pc`, at which nothing can be stored, becomes the entry point; a run invocation in progress keeps its
argument, and one that is begun here requests no pause (assumption log 7). -/
def placeInstruction (s : State) (w : Int) : State :=
  let pc : Int := if s.pc < 0 then Config.entryPoint else s.pc
  { s with
    pc := pc
    mem := Memory.writeList s.mem pc.toNat [w, 0, 0, 0]
    status := .running
    pauseReq := if performsStep s && s.pauseReq.isSome then s.pauseReq else some false }

end Sys2Proof.Machine
end

