-- ==== Sys2Proof/Machine/Step.lean ====
section
/-!
DEFINITION. One step (spec 46_step_cycle R105).
-/
namespace Sys2Proof.Machine

/-- One step: fetch and decode, then the instruction; a fatal error of the fetch or the decode is taken before
anything is executed. -/
def step (s : State) : Host.Outcome State Fault Refusal :=
  if performsStep s then
    match fetchInstr s with
    | .ok i => exec i s
    | .error e => .next (raiseFatal e s)
  else awaitHost s

/-- `s` with the opcode table's word `w` stored where `step` fetches its next instruction, inside a run invocation
(assumption log 7, 8). -/
def State.withFetchWord (s : State) (_nbits w : Nat) : State := placeInstruction s (w : Int)

end Sys2Proof.Machine
end

