-- ==== Sys2Proof/Machine/Commands.lean ====
section
/-!
DEFINITION. The host's commands (spec 60_exceptions R133 to R138, R141, R144; 70_reset_and_hazards R150 to R152).
They are not steps: the host issues them between run invocations (60_exceptions R137; assumption log 7). A command the
run state does not enable is refused and changes nothing (R138).
-/
namespace Sys2Proof.Machine

/-- Reset, in every status (70_reset_and_hazards R150; assumption log 9). -/
def hostReset (_s : State) : Host.Outcome State Fault Refusal := .next State.reset

/-- `load(program)`, in Idle (70_reset_and_hazards R151). The streams are not touched. -/
def hostLoad (p : Words) (s : State) : Host.Outcome State Fault Refusal :=
  match s.status with
  | .idle =>
    .next { s with
      mem := Memory.writeList s.mem Config.loadBase p
      pc := Config.entryPoint
      rb := Config.resetBase
      status := .loaded }
  | st => .refused (.commandNotEnabled (.load p) st)

/-- `patch(address, value)`, in Loaded (70_reset_and_hazards R152). With a negative address it changes nothing, and the
machine stays Loaded and usable; the error that the host gets back is `answer`'s. -/
def hostPatch (a v : Int) (s : State) : Host.Outcome State Fault Refusal :=
  match s.status with
  | .loaded =>
    .next (if a < 0 then s else s.setMem (Memory.write s.mem a.toNat v))
  | st => .refused (.commandNotEnabled (.patch a v) st)

/-- The start of a run invocation (46_step_cycle R111): its argument is taken and the status is Running. The run flags
of an earlier invocation do not reach it (10_state R14; assumption log 4). -/
def beginInvocation (pause : Bool) (s : State) : State :=
  { s.clearFlags with status := .running, pauseReq := some pause }

/-- `run(pause_on_output)`, in Loaded and Paused (60_exceptions R134). The steps that follow are `step`'s. -/
def hostRun (pause : Bool) (s : State) : Host.Outcome State Fault Refusal :=
  match s.status with
  | .loaded => .next (beginInvocation pause s)
  | .paused => .next (beginInvocation pause s)
  | st => .refused (.commandNotEnabled (.run pause) st)

/-- `feed(value)`, in any status but Running (60_exceptions R135). -/
def hostFeed (v : Int) (s : State) : Host.Outcome State Fault Refusal :=
  match s.status with
  | .running => .refused (.commandNotEnabled (.feed v) .running)
  | _ => .next (s.setInq (s.inq ++ [v]))

/-- `drain_output()`, in any status but Running (60_exceptions R136): it empties the sink; what it returns is
`answer`'s. -/
def hostDrain (s : State) : Host.Outcome State Fault Refusal :=
  match s.status with
  | .running => .refused (.commandNotEnabled .drain .running)
  | _ => .next (s.setOutq [])

/-- Inspection, in any status but Running: it changes nothing (60_exceptions R141). -/
def hostInspect (s : State) : Host.Outcome State Fault Refusal :=
  match s.status with
  | .running => .refused (.commandNotEnabled .inspect .running)
  | _ => .next s

/-- What a host command does to the machine (60_exceptions R144). -/
def hostCommand (c : Command) (s : State) : Host.Outcome State Fault Refusal :=
  match c with
  | .reset => hostReset s
  | .load p => hostLoad p s
  | .patch a v => hostPatch a v s
  | .run pause => hostRun pause s
  | .feed v => hostFeed v s
  | .drain => hostDrain s
  | .inspect => hostInspect s

/-- What an inspection shows (60_exceptions R141): `pc`, `rb`, both streams, the decode of `mem(pc)`, and the optional
`mem`, `status` and `fault`. Its textual format is no contract and is not modelled. -/
structure Inspection where
  pc : Int
  rb : Int
  inq : Words
  outq : Words
  /-- `Decode(mem(pc))`: absent when `pc` is negative (assumption log 12), `error` when the word is illegal. -/
  decoded : Option (Except Illegal Decoded)
  mem : Memory
  status : Status
  fault : Option FaultRecord
deriving Repr

/-- What an inspection reads off a state. -/
def inspection (s : State) : Inspection :=
  { pc := s.pc
    rb := s.rb
    inq := s.inq
    outq := s.outq
    decoded := match instructionWord s with
      | none => none
      | some w => some (decodeWord w)
    mem := s.mem
    status := s.status
    fault := s.fault }

/-- What an enabled command gives back to the host (60_exceptions R144). -/
inductive Answer where
  /-- Nothing: reset, load, feed, and a patch that was made; also the start of run, which answers when the invocation
  ends (`runResult`). -/
  | nothing
  /-- `patch`: InvalidAddress, with the negative address it was given (70_reset_and_hazards R152). -/
  | invalidAddress (address : Int)
  /-- `drain_output`: the integers produced since the last drain, oldest first. -/
  | outputs (vs : Words)
  /-- An inspection. -/
  | shown (i : Inspection)
deriving Repr

/-- What an enabled command gives back, read off the state it is issued in (60_exceptions R136, R141, R144;
70_reset_and_hazards R152). -/
def answer (c : Command) (s : State) : Answer :=
  match c with
  | .reset => .nothing
  | .load _ => .nothing
  | .patch a _ => if a < 0 then .invalidAddress a else .nothing
  | .run _ => .nothing
  | .feed _ => .nothing
  | .drain => .outputs s.outq
  | .inspect => .shown (inspection s)

end Sys2Proof.Machine
end

