-- ==== Sys2Proof/Machine/Invocation.lean ====
section
/-!
DEFINITION. One run invocation (spec 46_step_cycle R111): steps until one ends it. The machine has no step limit; the
number of steps allowed here only makes the function total, and running out of it gives no state (R113; assumption
log 11).
-/
namespace Sys2Proof.Machine

/-- Steps until the machine is no longer Running, at most `fuel` of them; `none` when they did not end the
invocation. -/
def runSteps : Nat → State → Option State
  | 0, s => if performsStep s then none else some s
  | fuel + 1, s =>
    if performsStep s then
      match step s with
      | .next t => runSteps fuel t
      | .fault _ => none
      | .refused _ => none
    else some s

/-- `run(pause_on_output)` to its end (60_exceptions R134): the state the host finds when the invocation returns, if it
returns within `fuel` steps. Refused outside Loaded and Paused, which gives `none` too. -/
def runInvocation (fuel : Nat) (pause : Bool) (s : State) : Option State :=
  match hostRun pause s with
  | .next t => runSteps fuel t
  | .fault _ => none
  | .refused _ => none

/-- What `run` returns to the host: the final status, and the record when it is Faulted (60_exceptions R134). -/
def runResult (s : State) : Status × Option FaultRecord := (s.status, s.fault)

end Sys2Proof.Machine
end

