-- ==== Sys2Proof/Safety.lean ====
section
/-!
DEFINITION. The terms in which claims about the machine are stated: which operands are usable in a state, what they
read as, and the invariant of every reachable state.
-/
namespace Sys2Proof.Machine

/-- Operand `o` can be read (spec 40_operands R76): it is immediate, or its effective address is not negative. -/
def Readable (o : Operand) (s : State) : Prop :=
  o.mode = .immediate ∨ (o.mode = .positional ∧ 0 ≤ o.word) ∨ (o.mode = .relative ∧ 0 ≤ o.word + s.rb)

/-- The value operand `o` reads as, where it can be read (40_operands R76). -/
def valueOf (o : Operand) (s : State) : Int :=
  match o.mode with
  | .positional => Memory.read s.mem o.word.toNat
  | .immediate => o.word
  | .relative => Memory.read s.mem (o.word + s.rb).toNat

/-- Only the fatal error is taken (60_exceptions R126, R127): `s` with the status Faulted, the record of `e`, and the
invocation ended. The record's fields are those of R126: `w` is the instruction word, absent when none was fetched. -/
def faultedBy (e : FatalError) (w : Option Int) (s : State) : State :=
  { s with
    status := .faulted
    fault := some
      { kind := e
        pc := s.pc
        word := w
        opcode := match w with
          | none => none
          | some v => if v < 0 then none else some (v % 100).toNat }
    pauseReq := none }

/-- The instruction word at a `pc` that is not negative (00_scope R7). -/
def wordAt (s : State) : Int := Memory.read s.mem s.pc.toNat

/-- The exceptions of a three-operand instruction in their order of priority (41_arithmetic R80, 40_operands R75): a
negative address of operand 0, of operand 1, an immediate destination, a negative destination. -/
def ThreeOperandFaults (mk : Operand → Operand → Operand → Instr) : Prop :=
  ∀ (s0 s1 d : Operand) (s : State), 0 ≤ s.pc →
    (∀ a, effectiveAddress s0 s = some a → a < 0 →
      exec (mk s0 s1 d) s = .next (faultedBy (.invalidAddress a (.read 0)) (some (wordAt s)) s)) ∧
    (∀ a, Readable s0 s → effectiveAddress s1 s = some a → a < 0 →
      exec (mk s0 s1 d) s = .next (faultedBy (.invalidAddress a (.read 1)) (some (wordAt s)) s)) ∧
    (Readable s0 s → Readable s1 s → d.mode = .immediate →
      exec (mk s0 s1 d) s = .next (faultedBy (.invalidWriteTarget 2) (some (wordAt s)) s)) ∧
    (∀ a, Readable s0 s → Readable s1 s → effectiveAddress d s = some a → a < 0 →
      exec (mk s0 s1 d) s = .next (faultedBy (.invalidAddress a (.write 2)) (some (wordAt s)) s))

/-- The result of a three-operand instruction (41_arithmetic R80): `f` of the two values read is stored at the
destination, whose address is `n`; `pc` advances by 4; both run flags are false; everything else is unchanged. -/
def ThreeOperandResult (mk : Operand → Operand → Operand → Instr) (f : Int → Int → Int) : Prop :=
  ∀ (s0 s1 d : Operand) (s : State) (n : Nat), Readable s0 s → Readable s1 s → effectiveAddress d s = some (n : Int) →
    exec (mk s0 s1 d) s = .next
      { s with
        mem := Memory.write s.mem n (f (valueOf s0 s) (valueOf s1 s))
        pc := s.pc + 4
        jflag := false
        oflag := false }

/-- What a step leaves of the registers its instruction does not name: either the instruction completed, with the
status, the record and the invocation as they were and the output flag false, or a fatal error was taken with the flags
as they were (46_step_cycle R105, R114). -/
def CompletedOrFaulted (s t : State) : Prop :=
  (t.status = s.status ∧ t.fault = s.fault ∧ t.pauseReq = s.pauseReq ∧ t.oflag = false) ∨
    (t.status = .faulted ∧ t.pauseReq = none ∧ t.jflag = s.jflag ∧ t.oflag = s.oflag ∧ t.pc = s.pc ∧ t.mem = s.mem ∧
      t.rb = s.rb ∧ t.inq = s.inq ∧ t.outq = s.outq)

/-- What holds of every state the machine and the host can reach from reset. -/
structure Inv (s : State) : Prop where
  /-- The memory is in its canonical form. -/
  memory : Memory.wf s.mem = true
  /-- The invocation's argument exists exactly while Running (10_state R19, R22). -/
  invocation : s.pauseReq.isSome = true ↔ s.status = .running
  /-- There is a fault record exactly when Faulted (10_state R16). -/
  record : s.fault.isSome = true ↔ s.status = .faulted
  /-- The record names the address the machine stopped at (60_exceptions R126, 46_step_cycle R114). -/
  stopped : ∀ r, s.fault = some r → r.pc = s.pc
  /-- No instruction sets both run flags (46_step_cycle R112). -/
  flags : ¬(s.jflag = true ∧ s.oflag = true)
  /-- In Idle everything but the input queue is as reset left it (10_state R22). -/
  idle : s.status = .idle → s.mem = [] ∧ s.pc = 0 ∧ s.rb = 0 ∧ s.outq = [] ∧ s.jflag = false ∧ s.oflag = false
  /-- In Loaded nothing has run (70_reset_and_hazards R151, R152). -/
  loaded : s.status = .loaded → s.pc = 0 ∧ s.rb = 0 ∧ s.outq = [] ∧ s.jflag = false ∧ s.oflag = false
  /-- Paused is left by an Output only, which has set its flag (46_step_cycle R108). -/
  paused : s.status = .paused → s.oflag = true

end Sys2Proof.Machine
end

