-- ==== Sys2Proof/Certificates/Slice0/Obligations.lean ====
section
/-!
DEFINITION. The statements for the provers. Each docstring names the rules of spec/ it formalises.
-/
open Sys2Proof Sys2Proof.Machine

/-! ### The decoder and the encoder -/

/-- Words written out digit by digit from 30_encoding R51 to R58, R65 and read as the instructions they stand for, at
least one of every family; and the refused neighbours of 95_test_vectors 2.1. -/
def Obligations.SpecWordsDecode : Prop :=
  decode [1101, 5, 5, 0] = .ok (.add ⟨.immediate, 5⟩ ⟨.immediate, 5⟩ ⟨.positional, 0⟩) ∧
  decode [1002, 4, 3, 4] = .ok (.mul ⟨.positional, 4⟩ ⟨.immediate, 3⟩ ⟨.positional, 4⟩) ∧
  decode [203, -4] = .ok (.input ⟨.relative, -4⟩) ∧
  decode [204, -1] = .ok (.output ⟨.relative, -1⟩) ∧
  decode [2105, 7, 3] = .ok (.jnz ⟨.immediate, 7⟩ ⟨.relative, 3⟩) ∧
  decode [1006, 101, 0] = .ok (.jz ⟨.positional, 101⟩ ⟨.immediate, 0⟩) ∧
  decode [20107, -1, 6, 9] = .ok (.lt ⟨.immediate, -1⟩ ⟨.positional, 6⟩ ⟨.relative, 9⟩) ∧
  decode [1008, 100, 16, 101] = .ok (.eq ⟨.positional, 100⟩ ⟨.immediate, 16⟩ ⟨.positional, 101⟩) ∧
  decode [109, 1] = .ok (.arb ⟨.immediate, 1⟩) ∧
  decode [99] = .ok .hlt ∧
  decode [10301, 0, 0, 0] = .error (.invalidMode 0 3) ∧
  decode [98] = .error .unknownOpcode ∧
  decode [-1] = .error .unknownOpcode

/-- Decode and encode agree on every instruction, with every operand at every mode and every integer, and whatever
words follow: the canonical encoding of 30_encoding R65 loses nothing. -/
def Obligations.DecodeOfEncode : Prop :=
  ∀ (i : Instr) (rest : Words), decode (encode i ++ rest) = .ok i

/-- The encoder gives back the word the decoder read, but for the digits that are ignored: its last `2 + N` decimal
digits (30_encoding R51, R55, R65); and the operand words. -/
def Obligations.EncodeOfDecode : Prop :=
  ∀ (w o0 o1 o2 : Int) (i : Instr), decode [w, o0, o1, o2] = .ok i →
    encode i = w % 10 ^ (2 + i.operands.length) :: [o0, o1, o2].take i.operands.length

/-- 30_encoding R55: decimal digits at positions `2 + N` and above have no effect, whatever the word decodes to; and a
canonical encoding has none. -/
def Obligations.HighDigitsIgnored : Prop :=
  (∀ (w k : Nat) (op : Opcode), Opcode.ofNumber? (w % 100) = some op →
    decodeWord ((w + 10 ^ (2 + op.operandCount) * k : Nat) : Int) = decodeWord (w : Int)) ∧
  (∀ i : Instr, encodeWord i < 10 ^ (2 + i.operands.length))

/-- 30_encoding R56, R57: the words the decoder gives no opcode are exactly the negative ones and those whose two low
digits are none of 1 to 9 and 99. -/
def Obligations.UnknownOpcodeExactly : Prop :=
  ∀ w : Int, decodeWord w = .error .unknownOpcode ↔ w < 0 ∨ w % 100 ∉ [1, 2, 3, 4, 5, 6, 7, 8, 9, 99]

/-- 30_encoding R59: the length is a function of the two low digits alone. -/
def Obligations.LengthByOpcodeField : Prop :=
  ∀ (w o0 o1 o2 : Int) (i : Instr), decode [w, o0, o1, o2] = .ok i →
    (w % 100 ∈ [1, 2, 7, 8] → (encode i).length = 4) ∧ (w % 100 ∈ [5, 6] → (encode i).length = 3) ∧
    (w % 100 ∈ [3, 4, 9] → (encode i).length = 2) ∧ (w % 100 = 99 → (encode i).length = 1)

/-! ### Memory and operands -/

/-- 20_memory R33: MemWrite refuses a negative address, and else stores the value in that cell and leaves every other
cell and everything else as it was. -/
def Obligations.MemWriteStoresOneCell : Prop :=
  ∀ (s : State) (a v : Int) (x : Access), Memory.wf s.mem = true →
    (a < 0 → memWrite a v x s = .error (.invalidAddress a x)) ∧
    (0 ≤ a → ∃ t, memWrite a v x s = .ok t ∧ t = { s with mem := t.mem } ∧ Memory.wf t.mem = true ∧
      ∀ b : Nat, Memory.read t.mem b = if (b : Int) = a then v else Memory.read s.mem b)

/-- 20_memory R31: every address that is not negative is readable and writable in every state, and a cell that none of
any sequence of writes since reset has named holds exactly 0. -/
def Obligations.UnwrittenCellsReadZero : Prop :=
  (∀ (s : State) (a v : Int) (x : Access), 0 ≤ a →
    memRead a x s = .ok (Memory.read s.mem a.toNat) ∧ ∃ t, memWrite a v x s = .ok t) ∧
  (∀ (ws : List (Nat × Int)) (a : Nat), (∀ p ∈ ws, p.1 ≠ a) →
    Memory.read (ws.foldl (fun m p => Memory.write m p.1 p.2) State.reset.mem) a = 0)

/-- 10_state R23: the memory is its value function alone. Two memories in canonical form that read alike everywhere are
the same memory. -/
def Obligations.MemoryIsItsContents : Prop :=
  ∀ m n : Memory, Memory.wf m = true → Memory.wf n = true → (∀ a, Memory.read m a = Memory.read n a) → m = n

/-- 40_operands R71: what a read operand gives in each mode. -/
def Obligations.ReadOperandByMode : Prop :=
  ∀ (i : Nat) (w : Int) (s : State),
    readOperand i ⟨.immediate, w⟩ s = .ok w ∧
    (0 ≤ w → readOperand i ⟨.positional, w⟩ s = .ok (Memory.read s.mem w.toNat)) ∧
    (w < 0 → readOperand i ⟨.positional, w⟩ s = .error (.invalidAddress w (.read i))) ∧
    (0 ≤ w + s.rb → readOperand i ⟨.relative, w⟩ s = .ok (Memory.read s.mem (w + s.rb).toNat)) ∧
    (w + s.rb < 0 → readOperand i ⟨.relative, w⟩ s = .error (.invalidAddress (w + s.rb) (.read i)))

/-- 40_operands R73: what a write operand does in each mode. -/
def Obligations.WriteOperandByMode : Prop :=
  ∀ (i : Nat) (w v : Int) (s : State),
    writeOperand i ⟨.immediate, w⟩ v s = .error (.invalidWriteTarget i) ∧
    (0 ≤ w → writeOperand i ⟨.positional, w⟩ v s = .ok { s with mem := Memory.write s.mem w.toNat v }) ∧
    (w < 0 → writeOperand i ⟨.positional, w⟩ v s = .error (.invalidAddress w (.write i))) ∧
    (0 ≤ w + s.rb →
      writeOperand i ⟨.relative, w⟩ v s = .ok { s with mem := Memory.write s.mem (w + s.rb).toNat v }) ∧
    (w + s.rb < 0 → writeOperand i ⟨.relative, w⟩ v s = .error (.invalidAddress (w + s.rb) (.write i)))

/-! ### The ten instructions: what each answers, and its exceptions -/

/-- 41_arithmetic R80: Add completes with the exact sum stored, and its exceptions in order of priority. -/
def Obligations.AddStoresExactSum : Prop :=
  ThreeOperandResult Instr.add (fun a b => a + b) ∧ ThreeOperandFaults Instr.add

/-- 41_arithmetic R81: Multiply completes with the exact product stored, and its exceptions in order of priority. -/
def Obligations.MulStoresExactProduct : Prop :=
  ThreeOperandResult Instr.mul (fun a b => a * b) ∧ ThreeOperandFaults Instr.mul

/-- 44_compare R95: Less-Than completes with exactly 1 or exactly 0 stored, and its exceptions. -/
def Obligations.LessThanStoresTruth : Prop :=
  ThreeOperandResult Instr.lt (fun a b => if a < b then 1 else 0) ∧ ThreeOperandFaults Instr.lt

/-- 44_compare R96: Equals completes with exactly 1 or exactly 0 stored, and its exceptions. -/
def Obligations.EqualsStoresTruth : Prop :=
  ThreeOperandResult Instr.eq (fun a b => if a = b then 1 else 0) ∧ ThreeOperandFaults Instr.eq

/-- 42_io R85: Input stores the head of the queue and removes it, or takes BlockingInput, InvalidWriteTarget or
InvalidAddress, in that order, and then the queue keeps its head. -/
def Obligations.InputStoresQueueHead : Prop :=
  ∀ (d : Operand) (s : State),
    (∀ (v : Int) (rest : Words) (n : Nat), s.inq = v :: rest → effectiveAddress d s = some (n : Int) →
      exec (.input d) s = .next
        { s with mem := Memory.write s.mem n v, inq := rest, pc := s.pc + 2, jflag := false, oflag := false }) ∧
    (0 ≤ s.pc → s.inq = [] →
      exec (.input d) s = .next (faultedBy .blockingInput (some (wordAt s)) s)) ∧
    (0 ≤ s.pc → s.inq ≠ [] → d.mode = .immediate →
      exec (.input d) s = .next (faultedBy (.invalidWriteTarget 0) (some (wordAt s)) s)) ∧
    (∀ a, 0 ≤ s.pc → s.inq ≠ [] → effectiveAddress d s = some a → a < 0 →
      exec (.input d) s = .next (faultedBy (.invalidAddress a (.write 0)) (some (wordAt s)) s))

/-- 42_io R86, 46_step_cycle R108: Output appends the value, sets its flag, advances, and then ends the invocation
Paused exactly when a pause was requested; on a negative address nothing is appended and the run ends Faulted. That the
run flags keep their values in a faulting step is the model's reading (assumption log 4). -/
def Obligations.OutputAppendsThenPauses : Prop :=
  ∀ (o : Operand) (s : State),
    (Readable o s → s.pauseReq ≠ some true →
      exec (.output o) s = .next
        { s with outq := s.outq ++ [valueOf o s], pc := s.pc + 2, jflag := false, oflag := true }) ∧
    (Readable o s → s.pauseReq = some true →
      exec (.output o) s = .next
        { s with
          outq := s.outq ++ [valueOf o s]
          pc := s.pc + 2
          jflag := false
          oflag := true
          status := .paused
          pauseReq := none }) ∧
    (∀ a, 0 ≤ s.pc → effectiveAddress o s = some a → a < 0 →
      exec (.output o) s = .next (faultedBy (.invalidAddress a (.read 0)) (some (wordAt s)) s))

/-- 43_jumps R90: Jump-If-True goes to the value of its target operand on any non-zero condition and advances by 3 on
zero, where the target operand is not read; and its exceptions in order of priority. -/
def Obligations.JumpIfTrueRedirects : Prop :=
  ∀ (c t : Operand) (s : State),
    (Readable c s → valueOf c s ≠ 0 → Readable t s →
      exec (.jnz c t) s = .next { s with pc := valueOf t s, jflag := true, oflag := false }) ∧
    (Readable c s → valueOf c s = 0 →
      exec (.jnz c t) s = .next { s with pc := s.pc + 3, jflag := false, oflag := false }) ∧
    (∀ a, 0 ≤ s.pc → effectiveAddress c s = some a → a < 0 →
      exec (.jnz c t) s = .next (faultedBy (.invalidAddress a (.read 0)) (some (wordAt s)) s)) ∧
    (∀ a, 0 ≤ s.pc → Readable c s → valueOf c s ≠ 0 → effectiveAddress t s = some a → a < 0 →
      exec (.jnz c t) s = .next (faultedBy (.invalidAddress a (.read 1)) (some (wordAt s)) s))

/-- 43_jumps R91: Jump-If-False goes to the value of its target operand on a zero condition and advances by 3 on any
other, where the target operand is not read; and its exceptions in order of priority. -/
def Obligations.JumpIfFalseRedirects : Prop :=
  ∀ (c t : Operand) (s : State),
    (Readable c s → valueOf c s = 0 → Readable t s →
      exec (.jz c t) s = .next { s with pc := valueOf t s, jflag := true, oflag := false }) ∧
    (Readable c s → valueOf c s ≠ 0 →
      exec (.jz c t) s = .next { s with pc := s.pc + 3, jflag := false, oflag := false }) ∧
    (∀ a, 0 ≤ s.pc → effectiveAddress c s = some a → a < 0 →
      exec (.jz c t) s = .next (faultedBy (.invalidAddress a (.read 0)) (some (wordAt s)) s)) ∧
    (∀ a, 0 ≤ s.pc → Readable c s → valueOf c s = 0 → effectiveAddress t s = some a → a < 0 →
      exec (.jz c t) s = .next (faultedBy (.invalidAddress a (.read 1)) (some (wordAt s)) s))

/-- 45_base_halt R100: Adjust-Relative-Base adds its operand, read with the old `rb`, to `rb`; on a negative address
`rb` is unchanged. -/
def Obligations.AdjustBaseAdds : Prop :=
  ∀ (o : Operand) (s : State),
    (Readable o s →
      exec (.arb o) s = .next
        { s with rb := s.rb + valueOf o s, pc := s.pc + 2, jflag := false, oflag := false }) ∧
    (∀ a, 0 ≤ s.pc → effectiveAddress o s = some a → a < 0 →
      exec (.arb o) s = .next (faultedBy (.invalidAddress a (.read 0)) (some (wordAt s)) s))

/-- 45_base_halt R101, 46_step_cycle R109: Halt sets the status and leaves `pc` and everything else, whatever pause was requested; its words
are 99 and every `99 + 100*k`. That the argument of `run` ceases to exist is 10_state R19. -/
def Obligations.HaltStopsInPlace : Prop :=
  (∀ s : State, exec .hlt s = .next { s with status := .halted, pauseReq := none, jflag := false, oflag := false }) ∧
  (∀ (k : Nat) (rest : Words), decode ((99 + 100 * (k : Int)) :: rest) = .ok .hlt)

/-! ### What each instruction leaves unchanged -/

/-- The frame of Add, Multiply, Less-Than and Equals: `rb` and both streams are unchanged, and every cell but the one
at the destination's effective address. -/
def Obligations.ThreeOperandFrame : Prop :=
  ∀ (s0 s1 d : Operand) (i : Instr) (s t : State), i ∈ [.add s0 s1 d, .mul s0 s1 d, .lt s0 s1 d, .eq s0 s1 d] →
    exec i s = .next t →
      t.rb = s.rb ∧ t.inq = s.inq ∧ t.outq = s.outq ∧ CompletedOrFaulted s t ∧ (t.jflag = true → t.status = .faulted) ∧
      ∀ a : Nat, effectiveAddress d s ≠ some (a : Int) → Memory.read t.mem a = Memory.read s.mem a

/-- The frame of Input: `rb` and the output sink are unchanged, the queue loses its head at most, and every cell but the
one at the destination's effective address is unchanged. -/
def Obligations.InputFrame : Prop :=
  ∀ (d : Operand) (s t : State), exec (.input d) s = .next t →
    t.rb = s.rb ∧ t.outq = s.outq ∧ (t.inq = s.inq ∨ ∃ v, s.inq = v :: t.inq) ∧ CompletedOrFaulted s t ∧
    (t.jflag = true → t.status = .faulted) ∧
    ∀ a : Nat, effectiveAddress d s ≠ some (a : Int) → Memory.read t.mem a = Memory.read s.mem a

/-- The frame of Output: memory, `rb` and the input queue are unchanged, and what was in the sink stays at its front. The
instruction completes, or completes and ends the invocation Paused, or takes a fatal error that leaves all but the status,
the record and the invocation as they were. That the fatal error leaves the two run flags with the values they had is the
model's reading of 46_step_cycle R110 against 42_io R86, where `oflag` "stays false" (assumption log 4). -/
def Obligations.OutputFrame : Prop :=
  ∀ (o : Operand) (s t : State), exec (.output o) s = .next t →
    t.mem = s.mem ∧ t.rb = s.rb ∧ t.inq = s.inq ∧
    ((t.outq = s.outq ++ [valueOf o s] ∧ t.fault = s.fault ∧ t.jflag = false ∧ t.oflag = true ∧
        (t.status = s.status ∧ t.pauseReq = s.pauseReq ∨ t.status = .paused ∧ t.pauseReq = none)) ∨
      (t.outq = s.outq ∧ t.status = .faulted ∧ t.pauseReq = none ∧ t.jflag = s.jflag ∧ t.oflag = s.oflag ∧ t.pc = s.pc))

/-- The frame of both jumps and of Adjust-Relative-Base: memory and both streams are unchanged, and `rb` too unless the
instruction is the adjustment. -/
def Obligations.JumpAndBaseFrame : Prop :=
  ∀ (x y : Operand) (i : Instr) (s t : State), i ∈ [.jnz x y, .jz x y, .arb x] → exec i s = .next t →
    t.mem = s.mem ∧ t.inq = s.inq ∧ t.outq = s.outq ∧ CompletedOrFaulted s t ∧ (i ≠ .arb x → t.rb = s.rb)

/-- 10_state R13 (b), (c): no instruction but opcode 9 writes `rb`, and it adds its operand. -/
def Obligations.OnlyAdjustMovesBase : Prop :=
  ∀ (i : Instr) (s t : State), exec i s = .next t → t.rb ≠ s.rb →
    ∃ o, i = .arb o ∧ Readable o s ∧ t.rb = s.rb + valueOf o s

/-- 10_state R17, R18, 42_io R87: the queue is consumed by Input only, one value from its head; the sink is appended to
by Output only, one value at its tail. -/
def Obligations.StreamsMoveByTheirInstruction : Prop :=
  ∀ (i : Instr) (s t : State), exec i s = .next t →
    (t.inq ≠ s.inq → ∃ d v, i = .input d ∧ s.inq = v :: t.inq) ∧
    (t.outq ≠ s.outq → ∃ o, i = .output o ∧ t.outq = s.outq ++ [valueOf o s])

/-- 46_step_cycle R106, R107: an instruction that completes without `jflag`, and is not Halt, advances `pc` by its
length; one that completes with `jflag` is a jump, and `pc` is the value of its target operand. -/
def Obligations.AdvanceUnlessJump : Prop :=
  ∀ (i : Instr) (s t : State), exec i s = .next t → t.status ≠ .faulted → i ≠ .hlt →
    (t.jflag = false → t.pc = s.pc + (encode i).length) ∧
    (t.jflag = true → ∃ c g, (i = .jnz c g ∨ i = .jz c g) ∧ Readable g s ∧ t.pc = valueOf g s)

/-- 40_operands R74: an instruction whose write operand is in immediate mode never stores; the run ends Faulted with
memory and the queue as they were. -/
def Obligations.ImmediateTargetNeverWritten : Prop :=
  ∀ (i : Instr) (k : Nat) (d : Operand) (s : State), i.writeOperand? = some (k, d) → d.mode = .immediate →
    ∃ t, exec i s = .next t ∧ t.status = .faulted ∧ t.mem = s.mem ∧ t.inq = s.inq ∧ t.pc = s.pc

/-! ### The step -/

/-- 46_step_cycle R105: a running machine whose cells at `pc` decode to an instruction steps by exactly that
instruction. -/
def Obligations.StepRunsDecoded : Prop :=
  ∀ (s : State) (i : Instr), s.status = .running → 0 ≤ s.pc → decode (Memory.cells s.mem s.pc.toNat 4) = .ok i →
    step s = exec i s

/-- 60_exceptions R124 (a): a negative `pc` raises InvalidAddress at the fetch, with no word in the record. -/
def Obligations.NegativePcFaultsAtFetch : Prop :=
  ∀ s : State, s.status = .running → s.pc < 0 →
    step s = .next (faultedBy (.invalidAddress s.pc .fetch) none s)

/-- 60_exceptions R121: a fetched word that is negative or names no opcode raises UnknownOpcode, code 1, with the word
and, when it is not negative, its opcode field recorded; and a step raises it for no other cause. -/
def Obligations.UnknownOpcodeRaised : Prop :=
  (∀ s : State, s.status = .running → 0 ≤ s.pc →
    (wordAt s < 0 ∨ wordAt s % 100 ∉ [1, 2, 3, 4, 5, 6, 7, 8, 9, 99]) →
    step s = .next (faultedBy .unknownOpcode (some (wordAt s)) s)) ∧
  (∀ (s t : State) (r : FaultRecord), s.status = .running → step s = .next t → t.status = .faulted →
    t.fault = some r → r.kind = .unknownOpcode →
    0 ≤ s.pc ∧ (wordAt s < 0 ∨ wordAt s % 100 ∉ [1, 2, 3, 4, 5, 6, 7, 8, 9, 99])) ∧
  FatalError.unknownOpcode.code = 1

/-- 60_exceptions R128: a legal opcode with a mode digit 3 to 9 among its `N` operands raises InvalidMode, code 5, for
the lowest such operand, at decode; and a step raises it for no other cause. -/
def Obligations.InvalidModeRaised : Prop :=
  (∀ (s : State) (op : Opcode) (k : Nat), s.status = .running → 0 ≤ s.pc → 0 ≤ wordAt s →
    Opcode.ofNumber? (wordAt s % 100).toNat = some op → k < op.operandCount → 2 < dig (wordAt s).toNat (2 + k) →
    (∀ j < k, dig (wordAt s).toNat (2 + j) ≤ 2) →
    step s = .next (faultedBy (.invalidMode k (dig (wordAt s).toNat (2 + k))) (some (wordAt s)) s)) ∧
  (∀ (s t : State) (r : FaultRecord) (k d : Nat), s.status = .running → step s = .next t → t.status = .faulted →
    t.fault = some r → r.kind = .invalidMode k d →
    0 ≤ s.pc ∧ 0 ≤ wordAt s ∧ d = dig (wordAt s).toNat (2 + k) ∧ 2 < d ∧ (∀ j < k, dig (wordAt s).toNat (2 + j) ≤ 2) ∧
      ∃ op, Opcode.ofNumber? (wordAt s % 100).toNat = some op ∧ k < op.operandCount) ∧
  (∀ k d, (FatalError.invalidMode k d).code = 5)

/-- 46_step_cycle R114: a faulting step leaves `pc`, `rb`, `mem`, `inq` and `outq` exactly as they were; only the status
and the record change, and the invocation is over, with its argument (10_state R19). -/
def Obligations.FaultingStepCommitsNothing : Prop :=
  ∀ s t : State, s.status = .running → step s = .next t → t.status = .faulted →
    t = { s with status := .faulted, fault := t.fault, pauseReq := none } ∧ t.fault.isSome = true

/-- From the table of 60_exceptions R126, and R124: the record of a faulting step holds the `pc` of its start; the word at
`pc`, present unless the fetch failed; the opcode field, when a word that is not negative was fetched. Of the other fields
it says when they are present: address, which is negative, and access for InvalidAddress; operand for InvalidWriteTarget
and InvalidMode; digit for InvalidMode. What these hold is stated per instruction and in `NegativePcFaultsAtFetch` and
`InvalidModeRaised`. -/
def Obligations.FaultRecordFields : Prop :=
  ∀ s t : State, s.status = .running → step s = .next t → t.status = .faulted →
    ∃ r, t.fault = some r ∧ r.pc = s.pc ∧
      (r.word = none ↔ r.access? = some .fetch) ∧ (∀ w, r.word = some w → 0 ≤ s.pc ∧ w = wordAt s) ∧
      (∀ n, r.opcode = some n ↔ ∃ w, r.word = some w ∧ 0 ≤ w ∧ (n : Int) = w % 100) ∧
      (r.address?.isSome = true ↔ r.kind.code = 4) ∧ (r.access?.isSome = true ↔ r.kind.code = 4) ∧
      (∀ a, r.address? = some a → a < 0) ∧
      (r.operand?.isSome = true ↔ r.kind.code = 2 ∨ r.kind.code = 5) ∧
      (r.digit?.isSome = true ↔ r.kind.code = 5)

/-- 60_exceptions R133, the rows of Running: every step of a running machine answers a next state; it is Halted exactly
after Halt, Paused exactly after an Output with a pause requested, Faulted exactly when a fatal error was recorded, and
Running otherwise. -/
def Obligations.RunningStepStatus : Prop :=
  ∀ s : State, s.status = .running → s.fault = none → ∃ t, step s = .next t ∧
    (t.status = .halted ↔ 0 ≤ s.pc ∧ decode (Memory.cells s.mem s.pc.toNat 4) = .ok .hlt) ∧
    (t.status = .paused ↔ 0 ≤ s.pc ∧ s.pauseReq = some true ∧
      ∃ o, decode (Memory.cells s.mem s.pc.toNat 4) = .ok (.output o) ∧ Readable o s) ∧
    (t.status = .faulted ↔ t.fault.isSome = true) ∧
    (t.status = .running ∨ t.status = .halted ∨ t.status = .paused ∨ t.status = .faulted)

/-- 60_exceptions R129, 45_base_halt R101: Halted and Faulted are terminal. No step and no host command but reset
leaves them or changes memory, `pc`, `rb` or the record. That a step answers a next state there at all is the model's
choice (assumption log 3). -/
def Obligations.TerminalStatusStays : Prop :=
  ∀ s t : State, s.status = .halted ∨ s.status = .faulted →
    (step s = .next t → t = s) ∧
    (∀ c, c ≠ .reset → hostCommand c s = .next t →
      t.status = s.status ∧ t.mem = s.mem ∧ t.pc = s.pc ∧ t.rb = s.rb ∧ t.fault = s.fault)

/-! ### Reset and the invariant -/

/-- 10_state R22, 70_reset_and_hazards R150: the values of all state after reset, which is accepted in every status. -/
def Obligations.ResetValues : Prop :=
  (∀ a, Memory.read State.reset.mem a = 0) ∧ State.reset.pc = 0 ∧ State.reset.rb = 0 ∧ State.reset.inq = [] ∧
  State.reset.outq = [] ∧ State.reset.status = .idle ∧ State.reset.fault = none ∧ State.reset.jflag = false ∧
  State.reset.oflag = false ∧ State.reset.pauseReq = none ∧
  ∀ s : State, hostCommand .reset s = .next State.reset

/-- The invariant holds after reset. -/
def Obligations.ResetIsInvariant : Prop := Inv State.reset

/-- Every step keeps the invariant: the memory's canonical form, the invocation's argument exactly while Running, the
record exactly when Faulted and naming `pc`, at most one run flag, Idle and Loaded with nothing run, Paused by Output. -/
def Obligations.StepKeepsInvariant : Prop :=
  ∀ s t : State, Inv s → step s = .next t → Inv t

/-- Every host command keeps the invariant. -/
def Obligations.CommandKeepsInvariant : Prop :=
  ∀ (c : Command) (s t : State), Inv s → hostCommand c s = .next t → Inv t

/-! ### What can not be learned or disturbed -/

/-- 10_state R18, 60_exceptions R136: no instruction reads the output sink. Whatever it held before, a step does the
same to everything else and appends the same values. -/
def Obligations.OutputSinkNeverRead : Prop :=
  ∀ (s t : State) (q : Words), step s = .next t →
    ∃ produced, t.outq = s.outq ++ produced ∧
      step { s with outq := q } = .next { t with outq := q ++ produced }

/-- 10_state R14 (d): the run flags carry nothing from one step to the next. Whatever they held, a step that does not
fault ends in the same state; one that faults differs in the flags alone, which it keeps (assumption log 4). -/
def Obligations.FlagsCarryNothing : Prop :=
  ∀ (s t : State) (j o : Bool), s.status = .running → step s = .next t →
    (t.status ≠ .faulted → step { s with jflag := j, oflag := o } = .next t) ∧
    (t.status = .faulted → step { s with jflag := j, oflag := o } = .next { t with jflag := j, oflag := o })

/-- 60_exceptions R135: values fed behind the queue do not disturb a step that does not fault; they are still there, in
order, behind what the step left. -/
def Obligations.FedValuesWaitTheirTurn : Prop :=
  ∀ (s t : State) (q : Words), s.status = .running → step s = .next t → t.status ≠ .faulted →
    step { s with inq := s.inq ++ q } = .next { t with inq := t.inq ++ q }

/-! ### The host's commands and the run invocation -/

/-- 70_reset_and_hazards R151: load, in Idle, puts word `a` of the program in cell `a` and leaves 0 above it, sets `pc`
and `rb` to 0, the status to Loaded, and touches neither stream. -/
def Obligations.LoadPlacesProgram : Prop :=
  ∀ (p : Words) (s : State), Inv s → s.status = .idle →
    ∃ t, hostCommand (.load p) s = .next t ∧ t.pc = 0 ∧ t.rb = 0 ∧ t.status = .loaded ∧ t.inq = s.inq ∧
      t.outq = s.outq ∧ t.fault = s.fault ∧ ∀ a : Nat, Memory.read t.mem a = p.getD a 0

/-- 70_reset_and_hazards R152: patch, in Loaded, stores one cell, changes nothing else and gives nothing back; with a
negative address it changes nothing at all and gives the host InvalidAddress. -/
def Obligations.PatchStoresOneCell : Prop :=
  ∀ (a v : Int) (s : State), s.status = .loaded →
    (0 ≤ a → hostCommand (.patch a v) s = .next { s with mem := Memory.write s.mem a.toNat v } ∧
      answer (.patch a v) s = .nothing) ∧
    (a < 0 → hostCommand (.patch a v) s = .next s ∧ answer (.patch a v) s = .invalidAddress a)

/-- 60_exceptions R134: run, in Loaded and Paused, takes its argument and sets the status Running, with everything else
as it was; the run flags are cleared with it, which is the model's reading (assumption log 4). -/
def Obligations.RunBeginsInvocation : Prop :=
  ∀ (b : Bool) (s : State), s.status = .loaded ∨ s.status = .paused →
    hostCommand (.run b) s = .next
      { s with status := .running, pauseReq := some b, jflag := false, oflag := false }

/-- 60_exceptions R135, R136: outside Running, feed appends at the tail of the queue, drain returns the whole sink and
empties it, and neither changes anything else. -/
def Obligations.FeedAndDrain : Prop :=
  ∀ (v : Int) (s : State), s.status ≠ .running →
    hostCommand (.feed v) s = .next { s with inq := s.inq ++ [v] } ∧
    hostCommand .drain s = .next { s with outq := [] } ∧ answer .drain s = .outputs s.outq

/-- 60_exceptions R137, R138: load outside Idle, patch outside Loaded, run outside Loaded and Paused, and every command
but reset while Running, are refused. -/
def Obligations.DisabledCommandsRefused : Prop :=
  ∀ (s : State),
    (∀ p, s.status ≠ .idle → hostCommand (.load p) s = .refused (.commandNotEnabled (.load p) s.status)) ∧
    (∀ a v, s.status ≠ .loaded → hostCommand (.patch a v) s = .refused (.commandNotEnabled (.patch a v) s.status)) ∧
    (∀ b, s.status ≠ .loaded → s.status ≠ .paused →
      hostCommand (.run b) s = .refused (.commandNotEnabled (.run b) s.status)) ∧
    (∀ c, s.status = .running → c ≠ .reset → hostCommand c s = .refused (.commandNotEnabled c .running))

/-- 46_step_cycle R111: an invocation that ends does so Halted, Paused or Faulted, and in no other status. -/
def Obligations.InvocationEndsInThreeWays : Prop :=
  ∀ (n : Nat) (b : Bool) (s t : State), runInvocation n b s = some t →
    t.status = .halted ∨ t.status = .paused ∨ t.status = .faulted

/-- 46_step_cycle R115: the end of an invocation is determined by the memory, `pc`, `rb`, the two streams and the argument.
Of two machines that agree on those, whether Loaded or Paused and whatever their run flags, if one ends then the other ends
after as many steps in the same state, and in no other state whatever number of steps it is allowed. The bound on the steps
is the model's (assumption log 11); that the ends agree in the run flags too rests on `run` clearing them (10_state R14,
"never persisted across runs"; assumption log 4). -/
def Obligations.InvocationEndUnique : Prop :=
  ∀ (m : Nat) (b : Bool) (s r t : State), Inv s → Inv r → (s.status = .loaded ∨ s.status = .paused) →
    (r.status = .loaded ∨ r.status = .paused) → r.mem = s.mem → r.pc = s.pc → r.rb = s.rb → r.inq = s.inq →
    r.outq = s.outq → runInvocation m b s = some t →
      runInvocation m b r = some t ∧ ∀ (n : Nat) (u : State), runInvocation n b r = some u → u = t
end

