-- ==== Sys2Proof/Laws/Commands.lean ====
section
/-!
SUPPORT. When each host command is accepted and what it then does (spec 60_exceptions R133, R138), each said once.
-/
namespace Sys2Proof.Machine

/-- `load` is accepted in Idle. -/
theorem hostLoad_next {p : Words} {s t : State} :
    hostLoad p s = .next t ↔ s.status = .idle ∧
      t = { s with mem := Memory.writeList s.mem 0 p, pc := 0, rb := 0, status := .loaded } := by
  cases h : s.status <;> simp [hostLoad, h, Config.loadBase, Config.entryPoint, Config.resetBase, eq_comm]

/-- `patch` is accepted in Loaded, and changes nothing there when its address is negative. -/
theorem hostPatch_next {a v : Int} {s t : State} :
    hostPatch a v s = .next t ↔ s.status = .loaded ∧
      t = if a < 0 then s else { s with mem := Memory.write s.mem a.toNat v } := by
  cases h : s.status <;> simp [hostPatch, h, State.setMem, eq_comm]

/-- `run` is accepted in Loaded and Paused. -/
theorem hostRun_next {b : Bool} {s t : State} :
    hostRun b s = .next t ↔ (s.status = .loaded ∨ s.status = .paused) ∧ t = beginInvocation b s := by
  cases h : s.status <;> simp [hostRun, h, eq_comm]

/-- `feed` is accepted outside Running. -/
theorem hostFeed_next {v : Int} {s t : State} :
    hostFeed v s = .next t ↔ s.status ≠ .running ∧ t = { s with inq := s.inq ++ [v] } := by
  cases h : s.status <;> simp [hostFeed, h, State.setInq, eq_comm]

/-- `drain_output` is accepted outside Running. -/
theorem hostDrain_next {s t : State} :
    hostDrain s = .next t ↔ s.status ≠ .running ∧ t = { s with outq := [] } := by
  cases h : s.status <;> simp [hostDrain, h, State.setOutq, eq_comm]

/-- No command ends in a fault. -/
theorem hostCommand_ne_fault (c : Command) (s : State) (f : Fault) : hostCommand c s ≠ .fault f := nomatch f

/-- An invocation begins in the same state from any two that agree on memory, `pc`, `rb`, the streams and the record. -/
theorem beginInvocation_congr {b : Bool} {s r : State} (mem : r.mem = s.mem) (pc : r.pc = s.pc) (rb : r.rb = s.rb)
    (inq : r.inq = s.inq) (outq : r.outq = s.outq) (fault : r.fault = s.fault) :
    beginInvocation b r = beginInvocation b s := by
  simp [beginInvocation, State.clearFlags, mem, pc, rb, inq, outq, fault]

end Sys2Proof.Machine
end

