-- ==== Sys2Proof/Laws/State.lean ====
section
/-!
SUPPORT. Each update of the state, field by field: what the field holds afterwards. All by `rfl`, so that no proof unfolds a
record update.
-/
namespace Sys2Proof.Machine

@[simp] theorem State.setMem_mem (s : State) (m : Memory) : (s.setMem m).mem = m := rfl
@[simp] theorem State.setMem_pc (s : State) (m : Memory) : (s.setMem m).pc = s.pc := rfl
@[simp] theorem State.setMem_rb (s : State) (m : Memory) : (s.setMem m).rb = s.rb := rfl
@[simp] theorem State.setMem_inq (s : State) (m : Memory) : (s.setMem m).inq = s.inq := rfl
@[simp] theorem State.setMem_outq (s : State) (m : Memory) : (s.setMem m).outq = s.outq := rfl
@[simp] theorem State.setMem_status (s : State) (m : Memory) : (s.setMem m).status = s.status := rfl
@[simp] theorem State.setMem_fault (s : State) (m : Memory) : (s.setMem m).fault = s.fault := rfl
@[simp] theorem State.setMem_jflag (s : State) (m : Memory) : (s.setMem m).jflag = s.jflag := rfl
@[simp] theorem State.setMem_oflag (s : State) (m : Memory) : (s.setMem m).oflag = s.oflag := rfl
@[simp] theorem State.setMem_pauseReq (s : State) (m : Memory) : (s.setMem m).pauseReq = s.pauseReq := rfl

@[simp] theorem State.setPc_mem (s : State) (v : Int) : (s.setPc v).mem = s.mem := rfl
@[simp] theorem State.setPc_pc (s : State) (v : Int) : (s.setPc v).pc = v := rfl
@[simp] theorem State.setPc_rb (s : State) (v : Int) : (s.setPc v).rb = s.rb := rfl
@[simp] theorem State.setPc_inq (s : State) (v : Int) : (s.setPc v).inq = s.inq := rfl
@[simp] theorem State.setPc_outq (s : State) (v : Int) : (s.setPc v).outq = s.outq := rfl
@[simp] theorem State.setPc_status (s : State) (v : Int) : (s.setPc v).status = s.status := rfl
@[simp] theorem State.setPc_fault (s : State) (v : Int) : (s.setPc v).fault = s.fault := rfl
@[simp] theorem State.setPc_jflag (s : State) (v : Int) : (s.setPc v).jflag = s.jflag := rfl
@[simp] theorem State.setPc_oflag (s : State) (v : Int) : (s.setPc v).oflag = s.oflag := rfl
@[simp] theorem State.setPc_pauseReq (s : State) (v : Int) : (s.setPc v).pauseReq = s.pauseReq := rfl

@[simp] theorem State.setRb_mem (s : State) (v : Int) : (s.setRb v).mem = s.mem := rfl
@[simp] theorem State.setRb_pc (s : State) (v : Int) : (s.setRb v).pc = s.pc := rfl
@[simp] theorem State.setRb_rb (s : State) (v : Int) : (s.setRb v).rb = v := rfl
@[simp] theorem State.setRb_inq (s : State) (v : Int) : (s.setRb v).inq = s.inq := rfl
@[simp] theorem State.setRb_outq (s : State) (v : Int) : (s.setRb v).outq = s.outq := rfl
@[simp] theorem State.setRb_status (s : State) (v : Int) : (s.setRb v).status = s.status := rfl
@[simp] theorem State.setRb_fault (s : State) (v : Int) : (s.setRb v).fault = s.fault := rfl
@[simp] theorem State.setRb_jflag (s : State) (v : Int) : (s.setRb v).jflag = s.jflag := rfl
@[simp] theorem State.setRb_oflag (s : State) (v : Int) : (s.setRb v).oflag = s.oflag := rfl
@[simp] theorem State.setRb_pauseReq (s : State) (v : Int) : (s.setRb v).pauseReq = s.pauseReq := rfl

@[simp] theorem State.setInq_mem (s : State) (q : Words) : (s.setInq q).mem = s.mem := rfl
@[simp] theorem State.setInq_pc (s : State) (q : Words) : (s.setInq q).pc = s.pc := rfl
@[simp] theorem State.setInq_rb (s : State) (q : Words) : (s.setInq q).rb = s.rb := rfl
@[simp] theorem State.setInq_inq (s : State) (q : Words) : (s.setInq q).inq = q := rfl
@[simp] theorem State.setInq_outq (s : State) (q : Words) : (s.setInq q).outq = s.outq := rfl
@[simp] theorem State.setInq_status (s : State) (q : Words) : (s.setInq q).status = s.status := rfl
@[simp] theorem State.setInq_fault (s : State) (q : Words) : (s.setInq q).fault = s.fault := rfl
@[simp] theorem State.setInq_jflag (s : State) (q : Words) : (s.setInq q).jflag = s.jflag := rfl
@[simp] theorem State.setInq_oflag (s : State) (q : Words) : (s.setInq q).oflag = s.oflag := rfl
@[simp] theorem State.setInq_pauseReq (s : State) (q : Words) : (s.setInq q).pauseReq = s.pauseReq := rfl

@[simp] theorem State.setOutq_mem (s : State) (q : Words) : (s.setOutq q).mem = s.mem := rfl
@[simp] theorem State.setOutq_pc (s : State) (q : Words) : (s.setOutq q).pc = s.pc := rfl
@[simp] theorem State.setOutq_rb (s : State) (q : Words) : (s.setOutq q).rb = s.rb := rfl
@[simp] theorem State.setOutq_inq (s : State) (q : Words) : (s.setOutq q).inq = s.inq := rfl
@[simp] theorem State.setOutq_outq (s : State) (q : Words) : (s.setOutq q).outq = q := rfl
@[simp] theorem State.setOutq_status (s : State) (q : Words) : (s.setOutq q).status = s.status := rfl
@[simp] theorem State.setOutq_fault (s : State) (q : Words) : (s.setOutq q).fault = s.fault := rfl
@[simp] theorem State.setOutq_jflag (s : State) (q : Words) : (s.setOutq q).jflag = s.jflag := rfl
@[simp] theorem State.setOutq_oflag (s : State) (q : Words) : (s.setOutq q).oflag = s.oflag := rfl
@[simp] theorem State.setOutq_pauseReq (s : State) (q : Words) : (s.setOutq q).pauseReq = s.pauseReq := rfl

@[simp] theorem State.setFault_mem (s : State) (r : FaultRecord) : (s.setFault r).mem = s.mem := rfl
@[simp] theorem State.setFault_pc (s : State) (r : FaultRecord) : (s.setFault r).pc = s.pc := rfl
@[simp] theorem State.setFault_rb (s : State) (r : FaultRecord) : (s.setFault r).rb = s.rb := rfl
@[simp] theorem State.setFault_inq (s : State) (r : FaultRecord) : (s.setFault r).inq = s.inq := rfl
@[simp] theorem State.setFault_outq (s : State) (r : FaultRecord) : (s.setFault r).outq = s.outq := rfl
@[simp] theorem State.setFault_status (s : State) (r : FaultRecord) : (s.setFault r).status = s.status := rfl
@[simp] theorem State.setFault_fault (s : State) (r : FaultRecord) : (s.setFault r).fault = some r := rfl
@[simp] theorem State.setFault_jflag (s : State) (r : FaultRecord) : (s.setFault r).jflag = s.jflag := rfl
@[simp] theorem State.setFault_oflag (s : State) (r : FaultRecord) : (s.setFault r).oflag = s.oflag := rfl
@[simp] theorem State.setFault_pauseReq (s : State) (r : FaultRecord) : (s.setFault r).pauseReq = s.pauseReq := rfl

@[simp] theorem State.endInvocation_mem (s : State) (st : Status) : (s.endInvocation st).mem = s.mem := rfl
@[simp] theorem State.endInvocation_pc (s : State) (st : Status) : (s.endInvocation st).pc = s.pc := rfl
@[simp] theorem State.endInvocation_rb (s : State) (st : Status) : (s.endInvocation st).rb = s.rb := rfl
@[simp] theorem State.endInvocation_inq (s : State) (st : Status) : (s.endInvocation st).inq = s.inq := rfl
@[simp] theorem State.endInvocation_outq (s : State) (st : Status) : (s.endInvocation st).outq = s.outq := rfl
@[simp] theorem State.endInvocation_status (s : State) (st : Status) : (s.endInvocation st).status = st := rfl
@[simp] theorem State.endInvocation_fault (s : State) (st : Status) : (s.endInvocation st).fault = s.fault := rfl
@[simp] theorem State.endInvocation_jflag (s : State) (st : Status) : (s.endInvocation st).jflag = s.jflag := rfl
@[simp] theorem State.endInvocation_oflag (s : State) (st : Status) : (s.endInvocation st).oflag = s.oflag := rfl
@[simp] theorem State.endInvocation_pauseReq (s : State) (st : Status) : (s.endInvocation st).pauseReq = none := rfl

@[simp] theorem State.clearFlags_mem (s : State) : (s.clearFlags).mem = s.mem := rfl
@[simp] theorem State.clearFlags_pc (s : State) : (s.clearFlags).pc = s.pc := rfl
@[simp] theorem State.clearFlags_rb (s : State) : (s.clearFlags).rb = s.rb := rfl
@[simp] theorem State.clearFlags_inq (s : State) : (s.clearFlags).inq = s.inq := rfl
@[simp] theorem State.clearFlags_outq (s : State) : (s.clearFlags).outq = s.outq := rfl
@[simp] theorem State.clearFlags_status (s : State) : (s.clearFlags).status = s.status := rfl
@[simp] theorem State.clearFlags_fault (s : State) : (s.clearFlags).fault = s.fault := rfl
@[simp] theorem State.clearFlags_jflag (s : State) : (s.clearFlags).jflag = false := rfl
@[simp] theorem State.clearFlags_oflag (s : State) : (s.clearFlags).oflag = false := rfl
@[simp] theorem State.clearFlags_pauseReq (s : State) : (s.clearFlags).pauseReq = s.pauseReq := rfl

@[simp] theorem State.setJflag_mem (s : State) : (s.setJflag).mem = s.mem := rfl
@[simp] theorem State.setJflag_pc (s : State) : (s.setJflag).pc = s.pc := rfl
@[simp] theorem State.setJflag_rb (s : State) : (s.setJflag).rb = s.rb := rfl
@[simp] theorem State.setJflag_inq (s : State) : (s.setJflag).inq = s.inq := rfl
@[simp] theorem State.setJflag_outq (s : State) : (s.setJflag).outq = s.outq := rfl
@[simp] theorem State.setJflag_status (s : State) : (s.setJflag).status = s.status := rfl
@[simp] theorem State.setJflag_fault (s : State) : (s.setJflag).fault = s.fault := rfl
@[simp] theorem State.setJflag_jflag (s : State) : (s.setJflag).jflag = true := rfl
@[simp] theorem State.setJflag_oflag (s : State) : (s.setJflag).oflag = s.oflag := rfl
@[simp] theorem State.setJflag_pauseReq (s : State) : (s.setJflag).pauseReq = s.pauseReq := rfl

@[simp] theorem State.setOflag_mem (s : State) : (s.setOflag).mem = s.mem := rfl
@[simp] theorem State.setOflag_pc (s : State) : (s.setOflag).pc = s.pc := rfl
@[simp] theorem State.setOflag_rb (s : State) : (s.setOflag).rb = s.rb := rfl
@[simp] theorem State.setOflag_inq (s : State) : (s.setOflag).inq = s.inq := rfl
@[simp] theorem State.setOflag_outq (s : State) : (s.setOflag).outq = s.outq := rfl
@[simp] theorem State.setOflag_status (s : State) : (s.setOflag).status = s.status := rfl
@[simp] theorem State.setOflag_fault (s : State) : (s.setOflag).fault = s.fault := rfl
@[simp] theorem State.setOflag_jflag (s : State) : (s.setOflag).jflag = s.jflag := rfl
@[simp] theorem State.setOflag_oflag (s : State) : (s.setOflag).oflag = true := rfl
@[simp] theorem State.setOflag_pauseReq (s : State) : (s.setOflag).pauseReq = s.pauseReq := rfl

end Sys2Proof.Machine
end

