-- ==== Sys2Proof/Laws/Cycle.lean ====
section
/-!
SUPPORT. What the parts of a step can answer (spec 46_step_cycle R105 to R110), each said once.
-/
namespace Sys2Proof.Machine

/-- A step ends in a next state: the instruction's own, advanced and checked for a pause, or the fatal error's. -/
theorem finishStep_next {op : Opcode} {s t : State} {r : Except FatalError State} (h : finishStep op s r = .next t) :
    (∃ u, r = .ok u ∧ t = pauseCheck (advance op u)) ∨ (∃ e, r = .error e ∧ t = raiseFatal e s) := by
  cases r with
  | ok u => exact .inl ⟨u, rfl, by simpa [finishStep] using h.symm⟩
  | error e => exact .inr ⟨e, rfl, by simpa [finishStep] using h.symm⟩

/-- The advance changes `pc` at most. -/
theorem advance_eq (op : Opcode) (s : State) :
    advance op s = { s with pc := if s.jflag then s.pc else s.pc + (op.length : Nat) } := by
  unfold advance
  split_ifs <;> rfl

/-- The pause check changes the status and ends the invocation, or changes nothing. -/
theorem pauseCheck_eq (s : State) :
    pauseCheck s =
      if s.pauseReq = some true ∧ s.oflag = true then { s with status := .paused, pauseReq := none } else s := rfl

/-- Without the output flag there is no pause. -/
theorem pauseCheck_of_no_output {s : State} (h : s.oflag = false) : pauseCheck s = s := by
  simp [pauseCheck, h]

/-- Taking a fatal error, field by field. -/
theorem raiseFatal_eq (e : FatalError) (s : State) :
    raiseFatal e s = { s with status := .faulted, fault := some (faultRecord e s), pauseReq := none } := rfl

/-- Fetching answers an instruction exactly when the cells at `pc` hold one. -/
theorem fetchInstr_ok {s : State} {i : Instr} :
    fetchInstr s = .ok i ↔ 0 ≤ s.pc ∧ decode (Memory.cells s.mem s.pc.toNat 4) = .ok i := by
  unfold fetchInstr memRead
  by_cases neg : s.pc < 0
  · rw [if_pos neg]; simp; omega
  · rw [if_neg neg]
    cases h : decode (Memory.cells s.mem s.pc.toNat 4) with
    | ok j => simp; omega
    | error x => simp

/-- A running machine steps by the instruction it fetched, or takes the fatal error of the fetch or the decode. -/
theorem step_running {s : State} (h : s.status = .running) :
    (∃ i, fetchInstr s = .ok i ∧ step s = exec i s) ∨
      (∃ e, fetchInstr s = .error e ∧ step s = .next (raiseFatal e s)) := by
  have run : performsStep s = true := by simp [performsStep, h]
  cases hf : fetchInstr s with
  | ok i => exact .inl ⟨i, rfl, by simp [step, run, hf]⟩
  | error e => exact .inr ⟨e, rfl, by simp [step, run, hf]⟩

/-- Outside Running a step changes nothing. -/
theorem step_not_running {s : State} (h : s.status ≠ .running) : step s = .next s := by
  have idle : performsStep s = false := by
    unfold performsStep
    cases hs : s.status <;> simp_all
  simp [step, idle, awaitHost]

end Sys2Proof.Machine
end

