-- ==== Sys2Proof/Laws/Decode.lean ====
section
/-!
SUPPORT. What the decoder's parts can answer (spec 30_encoding R53, R54, R60), each said once.
-/
namespace Sys2Proof

/-- The opcode map is the inverse of the opcode numbers. -/
theorem Opcode.ofNumber?_eq_some {n : Nat} {op : Opcode} : Opcode.ofNumber? n = some op ↔ n = op.number := by
  constructor
  · intro h
    unfold Opcode.ofNumber? at h
    split at h <;> first | (cases h; rfl) | cases h
  · rintro rfl
    cases op <;> rfl

/-- The digit map is the inverse of the mode digits. -/
theorem Mode.ofDigit?_eq_some {n : Nat} {m : Mode} : Mode.ofDigit? n = some m ↔ n = m.digit := by
  constructor
  · intro h
    unfold Mode.ofDigit? at h
    split at h <;> first | (cases h; rfl) | cases h
  · rintro rfl
    cases m <;> rfl

/-- The digits without a mode are those above 2. -/
theorem Mode.ofDigit?_eq_none {n : Nat} : Mode.ofDigit? n = none ↔ 2 < n := by
  match n with
  | 0 | 1 | 2 => simp [Mode.ofDigit?]
  | n + 3 => simp [Mode.ofDigit?]

/-- A mode's digit is 0, 1 or 2. -/
theorem Mode.digit_le (m : Mode) : m.digit ≤ 2 := by cases m <;> simp [Mode.digit]

/-- Two modes with one digit are one mode. -/
theorem Mode.digit_injective {m n : Mode} (h : m.digit = n.digit) : m = n := by
  cases m <;> cases n <;> first | rfl | simp [Mode.digit] at h

/-- An operand's mode is its digit's when the opcode has the operand, and positional when it has not. -/
theorem modeOf_ok {v k : Nat} {op : Opcode} {m : Mode} :
    modeOf v op k = .ok m ↔
      (k < op.operandCount ∧ dig v (2 + k) = m.digit) ∨ (op.operandCount ≤ k ∧ m = .positional) := by
  unfold modeOf
  split_ifs with h
  · cases hm : Mode.ofDigit? (dig v (2 + k)) with
    | none =>
      have big := Mode.ofDigit?_eq_none.mp hm
      have small := m.digit_le
      simp; omega
    | some n =>
      have digit := Mode.ofDigit?_eq_some.mp hm
      simp only [Except.ok.injEq, h, true_and, digit, Nat.not_le.mpr h, false_and, or_false]
      exact ⟨fun e => e ▸ rfl, Mode.digit_injective⟩
  · simp only [Except.ok.injEq, h, false_and, false_or, Nat.not_lt.mp h, true_and]
    exact eq_comm

/-- A mode digit is refused exactly when the opcode has the operand and the digit is above 2. -/
theorem modeOf_error {v k : Nat} {op : Opcode} {e : Illegal} :
    modeOf v op k = .error e ↔ k < op.operandCount ∧ 2 < dig v (2 + k) ∧ e = .invalidMode k (dig v (2 + k)) := by
  unfold modeOf
  split_ifs with h
  · cases hm : Mode.ofDigit? (dig v (2 + k)) with
    | none => simp [h, Mode.ofDigit?_eq_none.mp hm, eq_comm]
    | some n =>
      have digit := Mode.ofDigit?_eq_some.mp hm
      have small := n.digit_le
      simp; omega
  · simp [h]

/-- What a word decodes to: it is not negative, its two low digits are the opcode's number, and the mode digits of the
opcode's operands are legal. -/
theorem decodeWord_ok {w : Int} {d : Decoded} :
    decodeWord w = .ok d ↔
      0 ≤ w ∧ w.toNat % 100 = d.op.number ∧ modeOf w.toNat d.op 0 = .ok d.m0 ∧ modeOf w.toNat d.op 1 = .ok d.m1 ∧
        modeOf w.toNat d.op 2 = .ok d.m2 := by
  obtain ⟨op, a, b, c⟩ := d
  unfold decodeWord
  split_ifs with neg
  · simp; omega
  · rw [← Opcode.ofNumber?_eq_some]
    cases h : Opcode.ofNumber? (w.toNat % 100) with
    | none => simp
    | some o =>
      dsimp only
      simp only [Option.some.injEq, Int.not_lt.mp neg, true_and]
      constructor
      · intro h'
        cases h0 : modeOf w.toNat o 0 <;> cases h1 : modeOf w.toNat o 1 <;> cases h2 : modeOf w.toNat o 2 <;>
          simp [h0, h1, h2] at h'
        obtain ⟨rfl, rfl, rfl, rfl⟩ := h'
        exact ⟨rfl, h0, h1, h2⟩
      · rintro ⟨rfl, h0, h1, h2⟩
        simp [h0, h1, h2]

/-- Decoding a list of words reads the instruction word alone but for the operand words it passes on. -/
theorem decode_ok {ws : Words} {i : Instr} :
    decode ws = .ok i ↔
      ∃ d, decodeWord (ws.getD 0 0) = .ok d ∧ i = d.instr (ws.getD 1 0) (ws.getD 2 0) (ws.getD 3 0) := by
  unfold decode
  cases decodeWord (ws.getD 0 Config.unwrittenCell) with
  | error e => simp
  | ok d => simp [eq_comm]

end Sys2Proof
end

