-- ==== Sys2Proof/Laws/Memory.lean ====
section
/-!
SUPPORT. The laws of the memory (spec 20_memory R31, R33): what a read gives after a write, and that every memory
operation keeps the canonical form.
-/
namespace Sys2Proof.Machine

@[simp] theorem Memory.read_nil (a : Nat) : Memory.read [] a = 0 := rfl

@[simp] theorem Memory.read_cons (b : Nat) (w : Int) (m : Memory) (a : Nat) :
    Memory.read ((b, w) :: m) a = if b = a then w else Memory.read m a := rfl

@[simp] theorem Memory.wfFrom_nil (lo : Nat) : Memory.wfFrom lo [] = true := rfl

@[simp] theorem Memory.wfFrom_cons (lo b : Nat) (w : Int) (m : Memory) :
    Memory.wfFrom lo ((b, w) :: m) = true ↔ lo ≤ b ∧ w ≠ 0 ∧ Memory.wfFrom (b + 1) m = true := by
  simp [Memory.wfFrom, and_assoc]

/-- A memory in canonical form from `hi` on is so from any lower address on. -/
theorem Memory.wfFrom_mono {m : Memory} {lo hi : Nat} (h : Memory.wfFrom hi m = true) (le : lo ≤ hi) :
    Memory.wfFrom lo m = true := by
  cases m with
  | nil => rfl
  | cons p m =>
    obtain ⟨b, w⟩ := p
    rw [Memory.wfFrom_cons] at h ⊢
    exact ⟨le.trans h.1, h.2⟩

/-- Below the address its canonical form starts at, a memory reads 0. -/
theorem Memory.read_below {m : Memory} {lo : Nat} (h : Memory.wfFrom lo m = true) {a : Nat} (lt : a < lo) :
    Memory.read m a = 0 := by
  induction m generalizing lo with
  | nil => rfl
  | cons p m ih =>
    obtain ⟨b, w⟩ := p
    obtain ⟨le, -, hm⟩ := (Memory.wfFrom_cons lo b w m).mp h
    rw [Memory.read_cons, if_neg (by omega)]
    exact ih hm (by omega)

/-- A write leaves every other cell as it was, in any memory. -/
theorem Memory.read_write_ne (m : Memory) {a b : Nat} (v : Int) (ne : b ≠ a) :
    Memory.read (Memory.write m a v) b = Memory.read m b := by
  induction m with
  | nil => by_cases hv : v = 0 <;> simp [Memory.write, hv, ne.symm]
  | cons p m ih =>
    obtain ⟨c, w⟩ := p
    simp only [Memory.write]
    split_ifs with lt hv eq hv
    · rfl
    · simp [ne.symm]
    · subst eq; simp [ne.symm]
    · subst eq; simp [ne.symm]
    · simp [ih]

/-- A write stores the value, in a memory in canonical form. -/
theorem Memory.read_write_eq_from {m : Memory} {lo : Nat} (h : Memory.wfFrom lo m = true) (a : Nat) (v : Int) :
    Memory.read (Memory.write m a v) a = v := by
  induction m generalizing lo with
  | nil => by_cases hv : v = 0 <;> simp [Memory.write, hv]
  | cons p m ih =>
    obtain ⟨c, w⟩ := p
    obtain ⟨-, -, hm⟩ := (Memory.wfFrom_cons lo c w m).mp h
    simp only [Memory.write]
    split_ifs with lt hv eq hv
    · rw [Memory.read_cons, if_neg (by omega), Memory.read_below hm (by omega)]; exact hv.symm
    · simp
    · subst eq; rw [Memory.read_below hm (by omega)]; exact hv.symm
    · simp
    · rw [Memory.read_cons, if_neg (by omega)]; exact ih hm

/-- A write keeps the canonical form from any address the written cell is not below. -/
theorem Memory.write_wfFrom {m : Memory} {lo : Nat} (h : Memory.wfFrom lo m = true) {a : Nat} (le : lo ≤ a)
    (v : Int) : Memory.wfFrom lo (Memory.write m a v) = true := by
  induction m generalizing lo with
  | nil => by_cases hv : v = 0 <;> simp [Memory.write, hv, le]
  | cons p m ih =>
    obtain ⟨c, w⟩ := p
    obtain ⟨hc, hw, hm⟩ := (Memory.wfFrom_cons lo c w m).mp h
    simp only [Memory.write]
    split_ifs with lt hv eq hv
    · exact h
    · simp only [Memory.wfFrom_cons]; exact ⟨le, hv, by omega, hw, hm⟩
    · subst eq; exact Memory.wfFrom_mono hm (by omega)
    · subst eq; rw [Memory.wfFrom_cons]; exact ⟨le, hv, hm⟩
    · rw [Memory.wfFrom_cons]; exact ⟨hc, hw, ih hm (by omega)⟩

/-- What a cell reads as after a write to a memory in canonical form (R33). -/
theorem Memory.read_write {m : Memory} (h : Memory.wf m = true) (a b : Nat) (v : Int) :
    Memory.read (Memory.write m a v) b = if b = a then v else Memory.read m b := by
  split_ifs with eq
  · subst eq; exact Memory.read_write_eq_from h b v
  · exact Memory.read_write_ne m v eq

/-- A write keeps the canonical form. -/
theorem Memory.write_wf {m : Memory} (h : Memory.wf m = true) (a : Nat) (v : Int) :
    Memory.wf (Memory.write m a v) = true := Memory.write_wfFrom h (Nat.zero_le a) v

/-- Storing a list of words keeps the canonical form. -/
theorem Memory.writeList_wf {m : Memory} (h : Memory.wf m = true) (a : Nat) (ws : Words) :
    Memory.wf (Memory.writeList m a ws) = true := by
  induction ws generalizing m a with
  | nil => exact h
  | cons w ws ih => exact ih (Memory.write_wf h a w) (a + 1)

/-- The empty memory is in canonical form, so the memory after reset is. -/
@[simp] theorem Memory.wf_nil : Memory.wf [] = true := rfl

/-- The block read is the cells one by one. -/
theorem Memory.cells_getD (m : Memory) (a : Nat) (n k : Nat) (lt : k < n) :
    (Memory.cells m a n).getD k 0 = Memory.read m (a + k) := by
  induction n generalizing a k with
  | zero => omega
  | succ n ih =>
    cases k with
    | zero => rfl
    | succ k =>
      rw [Memory.cells, List.getD_cons_succ, ih (a + 1) k (by omega)]
      congr 1; omega

end Sys2Proof.Machine
end

