-- ==== Sys2Proof/Laws/Operands.lean ====
section
/-!
SUPPORT. What the shared operand operations can answer (spec 40_operands R71 to R76), each said once.
-/
namespace Sys2Proof.Machine

/-- MemRead answers the cell exactly at addresses that are not negative. -/
theorem memRead_ok {a : Int} {x : Access} {s : State} {v : Int} :
    memRead a x s = .ok v ↔ 0 ≤ a ∧ v = Memory.read s.mem a.toNat := by
  unfold memRead
  split_ifs with neg
  · simp; omega
  · simp only [Except.ok.injEq]; constructor
    · exact fun h => ⟨by omega, h.symm⟩
    · exact fun h => h.2.symm

/-- MemRead fails exactly at negative addresses. -/
theorem memRead_error {a : Int} {x : Access} {s : State} {e : FatalError} :
    memRead a x s = .error e ↔ a < 0 ∧ e = .invalidAddress a x := by
  unfold memRead
  split_ifs with neg
  · simp [neg, eq_comm]
  · simp [neg]

/-- MemWrite stores exactly at addresses that are not negative. -/
theorem memWrite_ok {a v : Int} {x : Access} {s t : State} :
    memWrite a v x s = .ok t ↔ 0 ≤ a ∧ t = s.setMem (Memory.write s.mem a.toNat v) := by
  unfold memWrite
  split_ifs with neg
  · simp; omega
  · simp only [Except.ok.injEq]; constructor
    · exact fun h => ⟨by omega, h.symm⟩
    · exact fun h => h.2.symm

/-- MemWrite fails exactly at negative addresses. -/
theorem memWrite_error {a v : Int} {x : Access} {s : State} {e : FatalError} :
    memWrite a v x s = .error e ↔ a < 0 ∧ e = .invalidAddress a x := by
  unfold memWrite
  split_ifs with neg
  · simp [neg, eq_comm]
  · simp [neg]

/-- A readable operand reads as its value. -/
theorem readOperand_of_readable {o : Operand} {s : State} (i : Nat) (h : Readable o s) :
    readOperand i o s = .ok (valueOf o s) := by
  obtain ⟨m, w⟩ := o
  cases m with
  | positional =>
    have : 0 ≤ w := by simpa [Readable] using h
    simp [readOperand, effectiveAddress, valueOf, memRead_ok, this]
  | immediate => rfl
  | relative =>
    have : 0 ≤ w + s.rb := by simpa [Readable] using h
    simp [readOperand, effectiveAddress, valueOf, memRead_ok, this]

/-- An operand that is not readable has a negative effective address, and reading it reports that address. -/
theorem readOperand_of_not_readable {o : Operand} {s : State} (i : Nat) (h : ¬Readable o s) :
    ∃ a, effectiveAddress o s = some a ∧ a < 0 ∧ readOperand i o s = .error (.invalidAddress a (.read i)) := by
  obtain ⟨m, w⟩ := o
  cases m with
  | positional =>
    have : w < 0 := by simpa [Readable] using h
    exact ⟨w, rfl, this, by simp [readOperand, effectiveAddress, memRead_error, this]⟩
  | immediate => simp [Readable] at h
  | relative =>
    have : w + s.rb < 0 := by simpa [Readable] using h
    exact ⟨w + s.rb, rfl, this, by simp [readOperand, effectiveAddress, memRead_error, this]⟩

/-- Writing through an operand stores at its effective address and changes nothing else, when it answers. -/
theorem writeOperand_ok {i : Nat} {o : Operand} {v : Int} {s t : State} :
    writeOperand i o v s = .ok t ↔
      ∃ a, effectiveAddress o s = some a ∧ 0 ≤ a ∧ t = s.setMem (Memory.write s.mem a.toNat v) := by
  unfold writeOperand
  cases h : effectiveAddress o s with
  | none => simp
  | some a => simp [memWrite_ok]

/-- What the three-operand shape does when it answers: one store, of the function of the two values read. -/
theorem computeToMemory_ok {f : Int → Int → Int} {s0 s1 d : Operand} {s t : State}
    (h : computeToMemory f s0 s1 d s = .ok t) :
    ∃ a b n, readOperand 0 s0 s = .ok a ∧ readOperand 1 s1 s = .ok b ∧ effectiveAddress d s = some n ∧ 0 ≤ n ∧
      t = s.setMem (Memory.write s.mem n.toNat (f a b)) := by
  unfold computeToMemory at h
  split at h
  · cases h
  · rename_i a ha
    split at h
    · cases h
    · rename_i b hb
      obtain ⟨n, hn, le, rfl⟩ := writeOperand_ok.mp h
      exact ⟨a, b, n, ha, hb, hn, le, rfl⟩

/-- The run flags play no part in operand resolution. -/
@[simp] theorem effectiveAddress_clearFlags (o : Operand) (s : State) :
    effectiveAddress o s.clearFlags = effectiveAddress o s := rfl

/-- The run flags play no part in reading an operand. -/
@[simp] theorem readOperand_clearFlags (i : Nat) (o : Operand) (s : State) :
    readOperand i o s.clearFlags = readOperand i o s := rfl

end Sys2Proof.Machine
end

