-- ==== Sys2Proof/Laws/Exec.lean ====
section
/-!
SUPPORT. What `exec` can answer, said once for all ten instructions: the inversion lemma from which frames and
invariants follow.
-/
namespace Sys2Proof.Machine

/-- The fatal errors an instruction itself can raise: those of the fetch and the decode are not among them, and an
address it reports is negative (spec 60_exceptions R125, 4). -/
def ExecError (e : FatalError) : Prop :=
  (∃ i, e = .invalidWriteTarget i) ∨ e = .blockingInput ∨ (∃ a i, a < 0 ∧ e = .invalidAddress a (.read i)) ∨
    ∃ a i, a < 0 ∧ e = .invalidAddress a (.write i)

/-- A read that fails reports a negative address. -/
theorem readOperand_error {i : Nat} {o : Operand} {s : State} {e : FatalError} (h : readOperand i o s = .error e) :
    ExecError e := by
  unfold readOperand at h
  split at h
  · cases h
  · obtain ⟨neg, rfl⟩ := memRead_error.mp h
    exact .inr (.inr (.inl ⟨_, i, neg, rfl⟩))

/-- A read that answers is of a readable operand and gives its value. -/
theorem readOperand_ok {i : Nat} {o : Operand} {s : State} {v : Int} (h : readOperand i o s = .ok v) :
    Readable o s ∧ v = valueOf o s := by
  by_cases r : Readable o s
  · rw [readOperand_of_readable i r] at h
    exact ⟨r, by simpa using h.symm⟩
  · obtain ⟨a, -, -, bad⟩ := readOperand_of_not_readable i r
    rw [bad] at h
    cases h

/-- A write that fails is through an immediate operand or at a negative address. -/
theorem writeOperand_error {i : Nat} {o : Operand} {v : Int} {s : State} {e : FatalError}
    (h : writeOperand i o v s = .error e) : ExecError e := by
  unfold writeOperand at h
  split at h
  · exact .inl ⟨i, by simpa using h.symm⟩
  · obtain ⟨neg, rfl⟩ := memWrite_error.mp h
    exact .inr (.inr (.inr ⟨_, i, neg, rfl⟩))

/-- The three-operand shape fails by its reads or its write. -/
theorem computeToMemory_error {f : Int → Int → Int} {s0 s1 d : Operand} {s : State} {e : FatalError}
    (h : computeToMemory f s0 s1 d s = .error e) : ExecError e := by
  unfold computeToMemory at h
  split at h
  · rename_i he; cases h; exact readOperand_error he
  · split at h
    · rename_i he; cases h; exact readOperand_error he
    · exact writeOperand_error h

/-- The rule of Input takes the head of the queue and stores it, when it answers. -/
theorem takeInput_ok {d : Operand} {s t : State} (h : takeInput d s = .ok t) :
    ∃ v rest a, s.inq = v :: rest ∧ effectiveAddress d s = some a ∧ 0 ≤ a ∧
      t = (s.setMem (Memory.write s.mem a.toNat v)).setInq rest := by
  unfold takeInput at h
  split at h
  · cases h
  · rename_i v rest hq
    split at h
    · cases h
    · rename_i u hu
      obtain ⟨a, ha, le, rfl⟩ := writeOperand_ok.mp hu
      exact ⟨v, rest, a, hq, ha, le, by simpa using h.symm⟩

/-- The rule of Input fails on an empty queue or by its write. -/
theorem takeInput_error {d : Operand} {s : State} {e : FatalError} (h : takeInput d s = .error e) : ExecError e := by
  unfold takeInput at h
  split at h
  · cases h; exact .inr (.inl rfl)
  · split at h
    · rename_i he; cases h; exact writeOperand_error he
    · cases h

/-- A jump goes to its target operand's value or does nothing, when it answers. -/
theorem jumpWhen_ok {p : Int → Bool} {c g : Operand} {s t : State} (h : jumpWhen p c g s = .ok t) :
    Readable c s ∧
      ((p (valueOf c s) = true ∧ Readable g s ∧ t = (s.setPc (valueOf g s)).setJflag) ∨
        (p (valueOf c s) = false ∧ t = s)) := by
  unfold jumpWhen at h
  split at h
  · cases h
  · rename_i v hv
    obtain ⟨hc, rfl⟩ := readOperand_ok hv
    split_ifs at h with taken
    · split at h
      · cases h
      · rename_i w hw
        obtain ⟨hg, rfl⟩ := readOperand_ok hw
        exact ⟨hc, .inl ⟨taken, hg, by simpa using h.symm⟩⟩
    · exact ⟨hc, .inr ⟨by simpa using taken, by simpa using h.symm⟩⟩

/-- A jump fails by its reads only. -/
theorem jumpWhen_error {p : Int → Bool} {c g : Operand} {s : State} {e : FatalError}
    (h : jumpWhen p c g s = .error e) : ExecError e := by
  unfold jumpWhen at h
  split at h
  · rename_i he; cases h; exact readOperand_error he
  · split_ifs at h
    split at h
    · rename_i he; cases h; exact readOperand_error he
    · cases h

/-- The rule of Output appends the operand's value, when it answers. -/
theorem putOutput_ok {o : Operand} {s t : State} (h : putOutput o s = .ok t) :
    Readable o s ∧ t = (s.setOutq (s.outq ++ [valueOf o s])).setOflag := by
  unfold putOutput at h
  split at h
  · cases h
  · rename_i v hv
    obtain ⟨ho, rfl⟩ := readOperand_ok hv
    exact ⟨ho, by simpa using h.symm⟩

/-- The rule of Output fails by its read only. -/
theorem putOutput_error {o : Operand} {s : State} {e : FatalError} (h : putOutput o s = .error e) : ExecError e := by
  unfold putOutput at h
  split at h
  · rename_i he; cases h; exact readOperand_error he
  · cases h

/-- The rule of Adjust-Relative-Base adds the operand's value, when it answers. -/
theorem adjustBase_ok {o : Operand} {s t : State} (h : adjustBase o s = .ok t) :
    Readable o s ∧ t = s.setRb (s.rb + valueOf o s) := by
  unfold adjustBase at h
  split at h
  · cases h
  · rename_i v hv
    obtain ⟨ho, rfl⟩ := readOperand_ok hv
    exact ⟨ho, by simpa using h.symm⟩

/-- The rule of Adjust-Relative-Base fails by its read only. -/
theorem adjustBase_error {o : Operand} {s : State} {e : FatalError} (h : adjustBase o s = .error e) : ExecError e := by
  unfold adjustBase at h
  split at h
  · rename_i he; cases h; exact readOperand_error he
  · cases h

/-- The run flags play no part in whether an operand can be read. -/
@[simp] theorem Readable_clearFlags (o : Operand) (s : State) : Readable o s.clearFlags ↔ Readable o s := Iff.rfl

/-- The run flags play no part in what an operand reads as. -/
@[simp] theorem valueOf_clearFlags (o : Operand) (s : State) : valueOf o s.clearFlags = valueOf o s := rfl

/-- How an instruction that raises no fatal error leaves the state: one case per kind of instruction. -/
inductive Completes (s : State) : Instr → State → Prop where
  /-- A three-operand instruction stores one word. -/
  | store (i : Instr) (s0 s1 d : Operand) (a v : Int) :
      i ∈ [.add s0 s1 d, .mul s0 s1 d, .lt s0 s1 d, .eq s0 s1 d] → Readable s0 s → Readable s1 s →
      effectiveAddress d s = some a → 0 ≤ a →
      Completes s i { s with mem := Memory.write s.mem a.toNat v, pc := s.pc + 4, jflag := false, oflag := false }
  /-- Input stores the head of the queue. -/
  | input (d : Operand) (v : Int) (rest : Words) (a : Int) :
      s.inq = v :: rest → effectiveAddress d s = some a → 0 ≤ a →
      Completes s (.input d)
        { s with mem := Memory.write s.mem a.toNat v, inq := rest, pc := s.pc + 2, jflag := false, oflag := false }
  /-- Output appends, and no pause was requested. -/
  | output (o : Operand) : Readable o s → s.pauseReq ≠ some true →
      Completes s (.output o)
        { s with outq := s.outq ++ [valueOf o s], pc := s.pc + 2, jflag := false, oflag := true }
  /-- Output appends and ends the invocation Paused. -/
  | pause (o : Operand) : Readable o s → s.pauseReq = some true →
      Completes s (.output o)
        { s with
          outq := s.outq ++ [valueOf o s]
          pc := s.pc + 2
          jflag := false
          oflag := true
          status := .paused
          pauseReq := none }
  /-- A jump is taken. -/
  | jump (i : Instr) (c g : Operand) : i ∈ [.jnz c g, .jz c g] → Readable c s → Readable g s →
      Completes s i { s with pc := valueOf g s, jflag := true, oflag := false }
  /-- A jump is not taken. -/
  | pass (i : Instr) (c g : Operand) : i ∈ [.jnz c g, .jz c g] → Readable c s →
      Completes s i { s with pc := s.pc + 3, jflag := false, oflag := false }
  /-- The relative base is adjusted. -/
  | adjust (o : Operand) : Readable o s →
      Completes s (.arb o) { s with rb := s.rb + valueOf o s, pc := s.pc + 2, jflag := false, oflag := false }
  /-- Halt ends the invocation. -/
  | halt : Completes s .hlt { s with status := .halted, pauseReq := none, jflag := false, oflag := false }

/-- The three-operand shape, from the start of the step to its end. -/
theorem finishStep_compute {f : Int → Int → Int} {op : Opcode} {s0 s1 d : Operand} {s t : State}
    (len : op.length = 4) (h : finishStep op s (computeToMemory f s0 s1 d s.clearFlags) = .next t) :
    (∃ a v, Readable s0 s ∧ Readable s1 s ∧ effectiveAddress d s = some a ∧ 0 ≤ a ∧
        t = { s with mem := Memory.write s.mem a.toNat v, pc := s.pc + 4, jflag := false, oflag := false }) ∨
      ∃ e, ExecError e ∧ t = raiseFatal e s := by
  rcases finishStep_next h with ⟨u, hu, rfl⟩ | ⟨e, he, rfl⟩
  · obtain ⟨x, y, a, hx, hy, ha, le, rfl⟩ := computeToMemory_ok hu
    refine .inl ⟨a, f x y, (readOperand_ok hx).1, (readOperand_ok hy).1, ha, le, ?_⟩
    simp [advance_eq, pauseCheck, State.setMem, State.clearFlags, len]
  · exact .inr ⟨e, computeToMemory_error he, rfl⟩

/-- The shape of the jumps, from the start of the step to its end. -/
theorem completes_jump {p : Int → Bool} {op : Opcode} {i : Instr} {c g : Operand} {s u : State} (len : op.length = 3)
    (mem : i ∈ [.jnz c g, .jz c g])
    (h : Readable c s.clearFlags ∧
      ((p (valueOf c s.clearFlags) = true ∧ Readable g s.clearFlags ∧
          u = (s.clearFlags.setPc (valueOf g s.clearFlags)).setJflag) ∨
        (p (valueOf c s.clearFlags) = false ∧ u = s.clearFlags))) :
    Completes s i (pauseCheck (advance op u)) := by
  obtain ⟨hc, ⟨-, hg, rfl⟩ | ⟨-, rfl⟩⟩ := h
  · have done := Completes.jump (s := s) i c g mem hc hg
    rw [valueOf_clearFlags]
    simpa [advance_eq, pauseCheck, State.setPc, State.setJflag, State.clearFlags] using done
  · have done := Completes.pass (s := s) i c g mem hc
    simpa [advance_eq, pauseCheck, State.clearFlags, len] using done

/-- Everything `exec` can answer: a fatal error of the instruction's own, or the instruction's completion. -/
theorem exec_next {i : Instr} {s t : State} (h : exec i s = .next t) :
    (∃ e, ExecError e ∧ t = raiseFatal e s) ∨ Completes s i t := by
  cases i with
  | add s0 s1 d =>
    rcases finishStep_compute rfl h with ⟨a, v, h0, h1, ha, le, rfl⟩ | bad
    · exact .inr (.store _ s0 s1 d a v (by simp) h0 h1 ha le)
    · exact .inl bad
  | mul s0 s1 d =>
    rcases finishStep_compute rfl h with ⟨a, v, h0, h1, ha, le, rfl⟩ | bad
    · exact .inr (.store _ s0 s1 d a v (by simp) h0 h1 ha le)
    · exact .inl bad
  | lt s0 s1 d =>
    rcases finishStep_compute rfl h with ⟨a, v, h0, h1, ha, le, rfl⟩ | bad
    · exact .inr (.store _ s0 s1 d a v (by simp) h0 h1 ha le)
    · exact .inl bad
  | eq s0 s1 d =>
    rcases finishStep_compute rfl h with ⟨a, v, h0, h1, ha, le, rfl⟩ | bad
    · exact .inr (.store _ s0 s1 d a v (by simp) h0 h1 ha le)
    · exact .inl bad
  | input d =>
    rcases finishStep_next h with ⟨u, hu, rfl⟩ | ⟨e, he, rfl⟩
    · obtain ⟨v, rest, a, hq, ha, le, rfl⟩ := takeInput_ok hu
      have done := Completes.input (s := s) d v rest a hq ha le
      exact .inr (by simpa [advance_eq, pauseCheck, State.setMem, State.setInq, State.clearFlags, Opcode.length,
        Opcode.operandCount] using done)
    · exact .inl ⟨e, takeInput_error he, rfl⟩
  | output o =>
    rcases finishStep_next h with ⟨u, hu, rfl⟩ | ⟨e, he, rfl⟩
    · obtain ⟨ho, rfl⟩ := putOutput_ok hu
      rw [valueOf_clearFlags]
      by_cases pause : s.pauseReq = some true
      · have done := Completes.pause (s := s) o ho pause
        exact .inr (by simpa [advance_eq, pauseCheck, State.setOutq, State.setOflag, State.clearFlags, Opcode.length,
          Opcode.operandCount, pause, State.endInvocation] using done)
      · have done := Completes.output (s := s) o ho pause
        exact .inr (by simpa [advance_eq, pauseCheck, State.setOutq, State.setOflag, State.clearFlags, Opcode.length,
          Opcode.operandCount, pause] using done)
    · exact .inl ⟨e, putOutput_error he, rfl⟩
  | jnz c g =>
    rcases finishStep_next h with ⟨u, hu, rfl⟩ | ⟨e, he, rfl⟩
    · exact .inr (completes_jump rfl (by simp) (jumpWhen_ok hu))
    · exact .inl ⟨e, jumpWhen_error he, rfl⟩
  | jz c g =>
    rcases finishStep_next h with ⟨u, hu, rfl⟩ | ⟨e, he, rfl⟩
    · exact .inr (completes_jump rfl (by simp) (jumpWhen_ok hu))
    · exact .inl ⟨e, jumpWhen_error he, rfl⟩
  | arb o =>
    rcases finishStep_next h with ⟨u, hu, rfl⟩ | ⟨e, he, rfl⟩
    · obtain ⟨ho, rfl⟩ := adjustBase_ok hu
      have done := Completes.adjust (s := s) o ho
      rw [valueOf_clearFlags]
      exact .inr (by simpa [advance_eq, pauseCheck, State.setRb, State.clearFlags, Opcode.length,
        Opcode.operandCount] using done)
    · exact .inl ⟨e, adjustBase_error he, rfl⟩
  | hlt =>
    right
    obtain rfl : s.clearFlags.endInvocation .halted = t := by simpa [exec, execHlt] using h
    exact .halt

end Sys2Proof.Machine
end

