-- ==== Sys2Proof/Laws/PerInstr.lean ====
section
/-!
SUPPORT. Statements made instruction by instruction. `EncodedLength`: an instruction's encoding has exactly as many
words as the spec gives it cells, `LEN = 1 + N` (30_encoding R50, R59).
-/
namespace Sys2Proof.Laws.EncodedLength

/-- The encoding of `i` occupies the `LEN` cells of its opcode. -/
def Statement (i : Instr) : Prop := (encode i).length = i.opcode.length

theorem add (s0 s1 d : Operand) : Statement (.add s0 s1 d) := rfl

theorem mul (s0 s1 d : Operand) : Statement (.mul s0 s1 d) := rfl

theorem input (d : Operand) : Statement (.input d) := rfl

theorem output (o : Operand) : Statement (.output o) := rfl

theorem jnz (c t : Operand) : Statement (.jnz c t) := rfl

theorem jz (c t : Operand) : Statement (.jz c t) := rfl

theorem lt (s0 s1 d : Operand) : Statement (.lt s0 s1 d) := rfl

theorem eq (s0 s1 d : Operand) : Statement (.eq s0 s1 d) := rfl

theorem arb (o : Operand) : Statement (.arb o) := rfl

theorem hlt : Statement .hlt := rfl

end Sys2Proof.Laws.EncodedLength
end

