-- ==== Sys2Proof/Tests/Slice0.lean ====
section
/-!
SUPPORT. Tests of one step each, with the expected results of spec/95_test_vectors.md (the vector's id stands in each
comment), the decoder on words written out from 30_encoding, the well-formedness check on ill-formed terms, and for
every obligation with hypotheses a named witness that meets them, clause by clause.
-/
namespace Sys2Proof.Tests
open Sys2Proof.Machine

/-- A machine inside a run invocation, with a program loaded from address 0 on. -/
def machine (program : Words) (pc rb : Int) (inq : Words) (pause : Bool) : State :=
  { State.reset with
    mem := Memory.writeList [] 0 program
    pc := pc
    rb := rb
    inq := inq
    status := .running
    pauseReq := some pause }

/-- The next state of an outcome. -/
def nextOf (o : Host.Outcome State Fault Refusal) : Option State :=
  match o with
  | .next s => some s
  | .fault _ => none
  | .refused _ => none

theorem of_nextOf {o : Host.Outcome State Fault Refusal} {t : State} (h : nextOf o = some t) : o = .next t := by
  cases o with
  | next s => simpa [nextOf] using h
  | fault r => cases h
  | refused r => cases h

/-- What one step from `s` shows of `f`. -/
def after {α : Type} (s : State) (f : State → α) : Option α := (nextOf (step s)).map f

/-- The kind of the fatal error one step from `s` records. -/
def kindAfter (s : State) : Option FatalError :=
  match nextOf (step s) with
  | some t => t.fault.map FaultRecord.kind
  | none => none

/-! ### The decoder, on words written out from 30_encoding R51, R58, R65 -/

-- V-DEC3, V-DEC5, V-DEC8
theorem test_decode_add : decode [21101, 7, 8, -3] =
    .ok (.add ⟨.immediate, 7⟩ ⟨.immediate, 8⟩ ⟨.relative, -3⟩) := by decide

-- V-DEC2, V-DEC7
theorem test_decode_mul : decode [21202, 1, 2, 3] =
    .ok (.mul ⟨.relative, 1⟩ ⟨.immediate, 2⟩ ⟨.relative, 3⟩) := by decide

-- V-DEC9, V-DEC18
theorem test_decode_input : decode [203, -4] = .ok (.input ⟨.relative, -4⟩) ∧
    decode [1003, 5] = .ok (.input ⟨.positional, 5⟩) := by decide

-- V-DEC10
theorem test_decode_output : decode [104, 7] = .ok (.output ⟨.immediate, 7⟩) := by decide

-- V-DEC11
theorem test_decode_jnz : decode [1005, 20, 4] = .ok (.jnz ⟨.positional, 20⟩ ⟨.immediate, 4⟩) := by decide

-- V-DEC12
theorem test_decode_jz : decode [1106, 0, 9] = .ok (.jz ⟨.immediate, 0⟩ ⟨.immediate, 9⟩) := by decide

-- V-DEC13
theorem test_decode_lt : decode [1107, -1, 0, 9] =
    .ok (.lt ⟨.immediate, -1⟩ ⟨.immediate, 0⟩ ⟨.positional, 9⟩) := by decide

-- V-DEC14
theorem test_decode_eq : decode [1008, 100, 16, 101] =
    .ok (.eq ⟨.positional, 100⟩ ⟨.immediate, 16⟩ ⟨.positional, 101⟩) := by decide

-- V-DEC15, V-DEC19
theorem test_decode_arb : decode [209, -2] = .ok (.arb ⟨.relative, -2⟩) ∧
    decode [2109, 3] = .ok (.arb ⟨.immediate, 3⟩) := by decide

-- V-DEC16, V-DEC17
theorem test_decode_hlt : decode [99] = .ok .hlt ∧ decode [199] = .ok .hlt ∧ decode [10099] = .ok .hlt := by decide

-- V-DEC21, V-DEC27
theorem test_decode_unknown : ∀ w ∈ [0, 10, 13, 98, 100, 1100, 12345, -1, -99, -1101],
    decode [w] = .error .unknownOpcode := by decide

-- V-DEC22 to V-DEC26
theorem test_decode_modes : decode [301] = .error (.invalidMode 0 3) ∧ decode [3001] = .error (.invalidMode 1 3) ∧
    decode [30001] = .error (.invalidMode 2 3) ∧ decode [903] = .error (.invalidMode 0 9) ∧
    decode [10301] = .error (.invalidMode 0 3) := by decide

-- R65: Enc(1, 1, 1, 0) = 1101 and Enc(1, 1, 1, 2) = 21101
theorem test_encode_words : encode (.add ⟨.immediate, 5⟩ ⟨.immediate, 5⟩ ⟨.positional, 0⟩) = [1101, 5, 5, 0] ∧
    encodeWord (.add ⟨.immediate, 5⟩ ⟨.immediate, 5⟩ ⟨.relative, 0⟩) = 21101 ∧ encode .hlt = [99] := by decide

/-! ### Well-formedness: an ill-formed term for each write operand, and the legal neighbour -/

theorem test_wellFormed_refuses :
    Instr.wellFormed (.add ⟨.immediate, 1⟩ ⟨.immediate, 1⟩ ⟨.immediate, 0⟩) = false ∧
    Instr.wellFormed (.mul ⟨.immediate, 1⟩ ⟨.immediate, 1⟩ ⟨.immediate, 0⟩) = false ∧
    Instr.wellFormed (.lt ⟨.immediate, 1⟩ ⟨.immediate, 1⟩ ⟨.immediate, 0⟩) = false ∧
    Instr.wellFormed (.eq ⟨.immediate, 1⟩ ⟨.immediate, 1⟩ ⟨.immediate, 0⟩) = false ∧
    Instr.wellFormed (.input ⟨.immediate, 0⟩) = false := by decide

theorem test_wellFormed_accepts :
    Instr.wellFormed (.add ⟨.immediate, 1⟩ ⟨.immediate, 1⟩ ⟨.relative, 0⟩) = true ∧
    Instr.wellFormed (.input ⟨.positional, 0⟩) = true ∧ Instr.wellFormed (.output ⟨.immediate, 0⟩) = true := by decide

/-! ### One step of each instruction -/

-- S2
theorem test_add_immediate : after (machine [1101, 5, 5, 0, 99] 0 0 [] false)
    (fun t => (Memory.read t.mem 0, t.pc)) = some (10, 4) := by decide

-- V-AR7: 2^64 + 2^64 = 2^65, no wrap
theorem test_add_unbounded : after (machine [1101, 18446744073709551616, 18446744073709551616, 5, 99] 0 0 [] false)
    (fun t => Memory.read t.mem 5) = some 36893488147419103232 := by decide

-- S7: the product is stored over the operand's own cell
theorem test_mul_mixed : after (machine [1002, 4, 3, 4, 33] 0 0 [] false)
    (fun t => (Memory.read t.mem 4, t.pc)) = some (99, 4) := by decide

-- V-AR8
theorem test_mul_signs : after (machine [1102, 3, -4, 13] 0 0 [] false)
    (fun t => Memory.read t.mem 13) = some (-12) := by decide

-- V-IO1
theorem test_input_stores : after (machine [3, 9, 99] 0 0 [42] false)
    (fun t => (Memory.read t.mem 9, t.inq, t.pc)) = some (42, [], 2) := by decide

-- V-IO4, V-IO5: the empty queue comes before the immediate target, and a faulting Input consumes nothing
theorem test_input_faults : kindAfter (machine [103, 0, 99] 0 0 [77] false) = some (.invalidWriteTarget 0) ∧
    after (machine [103, 0, 99] 0 0 [77] false) (fun t => (t.inq, t.pc, t.status)) = some ([77], 0, .faulted) ∧
    kindAfter (machine [103, 0, 99] 0 0 [] false) = some .blockingInput := by decide

-- V-IO10: the pause comes after the advance
theorem test_output_pauses : after (machine [104, 7, 99] 0 0 [] true)
    (fun t => (t.outq, t.pc, t.status)) = some ([7], 2, .paused) := by decide

-- V-IO9, and the source's 204,-1 with rb = 1
theorem test_output_appends : after (machine [109, 1, 204, -1] 2 1 [] false)
    (fun t => (t.outq, t.pc, t.status)) = some ([109], 4, .running) := by decide

-- V-J5: a negative condition is true
theorem test_jnz_negative : after (machine [1105, -3, 4, 99] 0 0 [] false) (fun t => (t.pc, t.jflag)) =
    some (4, true) := by decide

-- V-J11: the target operand of a taken jump is read
theorem test_jnz_target_fault : kindAfter (machine [5, 5, -3, 99, 0, 1] 0 0 [] false) =
    some (.invalidAddress (-3) (.read 1)) := by decide

-- V-J3
theorem test_jz_taken : after (machine [1106, 0, 4, 99] 0 0 [] false) (fun t => t.pc) = some 4 := by decide

-- V-J10: the target operand of an untaken jump is not read
theorem test_jz_untaken : after (machine [6, 5, -3, 99, 0, 1] 0 0 [] false) (fun t => (t.pc, t.status)) =
    some (3, .running) := by decide

-- V-C1
theorem test_lt_signed : after (machine [1107, -1, 0, 9] 0 0 [] false) (fun t => Memory.read t.mem 9) = some 1 := by
  decide

-- V-C2: the destination is overwritten with 0
theorem test_lt_overwrites : after (machine [1107, 3, -3, 5, 99, 7] 0 0 [] false) (fun t => Memory.read t.mem 5) =
    some 0 := by decide

-- V-C5: two unwritten cells are equal
theorem test_eq_unwritten : after (machine [8, 5, 6, 7, 99, 0, 0, 9] 0 0 [] false) (fun t => Memory.read t.mem 7) =
    some 1 := by decide

-- V-C8
theorem test_eq_immediate_target : kindAfter (machine [11108, 1, 1, 0, 99] 0 0 [] false) =
    some (.invalidWriteTarget 2) := by decide

-- V-BH2, its second step: 5 + -8
theorem test_arb_negative : after (machine [109, 5, 109, -8] 2 5 [] false) (fun t => (t.rb, t.pc)) = some (-3, 4) := by
  decide

-- V-BH3, its second step: the operand is read with the old rb
theorem test_arb_old_base : after (machine [9, 7, 209, -2, 204, -9, 99, 4] 2 4 [] false) (fun t => t.rb) =
    some 213 := by decide

-- V-BH1, V-BH5
theorem test_hlt_in_place : after (machine [99] 0 0 [] true) (fun t => (t.pc, t.status)) = some (0, .halted) ∧
    after (machine [199] 0 0 [] false) (fun t => t.status) = some .halted := by decide

/-! ### The step, the faults and the host's commands -/

-- V-AR12, V-AR13: operand 0 before operand 1, and a read fault before the immediate target
theorem test_priority : kindAfter (machine [1, -1, -2, 0, 99] 0 0 [] false) =
      some (.invalidAddress (-1) (.read 0)) ∧
    kindAfter (machine [10001, -1, 0, 0, 99] 0 0 [] false) = some (.invalidAddress (-1) (.read 0)) := by decide

-- S6b: the whole record
theorem test_record : after (machine [11101, 1, 1, 0, 99] 0 0 [] false) (fun t => t.fault) =
    some (some { kind := .invalidWriteTarget 2, pc := 0, word := some 11101, opcode := some 1 }) := by decide

-- P6 (a): the fetch at a negative pc, with no word in the record
theorem test_negative_pc : after (machine [1105, 1, -7] (-7) 0 [] false) (fun t => (t.pc, t.fault)) =
    some (-7, some { kind := .invalidAddress (-7) .fetch, pc := -7, word := none, opcode := none }) := by decide

-- V-ST1, V-AR14
theorem test_unknown_and_ignored : kindAfter (machine [] 0 0 [] false) = some .unknownOpcode ∧
    after (machine [100001, 0, 0, 0, 99] 0 0 [] false) (fun t => Memory.read t.mem 0) = some 200002 := by decide

-- V-ST11: the advance uses the length decoded before the instruction word was overwritten
theorem test_own_word_overwritten : after (machine [1101, 1, 1, 0, 99] 0 0 [] false)
    (fun t => (Memory.read t.mem 0, t.pc)) = some (2, 4) := by decide

-- V-ST2: load, then patch
theorem test_load_patch :
    (match nextOf (hostCommand (.load [1, 0, 0, 0, 99]) State.reset) with
      | some s => (nextOf (hostCommand (.patch 1 4) s)).map (fun t => (Memory.cells t.mem 0 5, t.status))
      | none => none) = some ([1, 4, 0, 0, 99], .loaded) := by decide

-- V-ST4
theorem test_run_in_idle_refused :
    hostCommand (.run false) State.reset = .refused (.commandNotEnabled (.run false) .idle) := rfl

-- V-ST3: the patch is answered with InvalidAddress, changes nothing, and the program runs to its Halt
theorem test_patch_negative_address :
    (match nextOf (hostCommand (.load [99]) State.reset) with
      | some s => (nextOf (hostCommand (.patch (-1) 5) s)).map (fun t => (decide (t = s), t.status, t.fault,
          (runInvocation 1 false t).map (fun u => u.status)))
      | none => none) = some (true, .loaded, none, some .halted) ∧
    answer (.patch (-1) 5) State.reset = .invalidAddress (-1) := ⟨by decide, rfl⟩

-- The first step after reset with a table word placed runs that instruction
theorem test_withFetchWord : after (State.reset.withFetchWord 8 99) (fun t => t.status) = some .halted ∧
    after (State.reset.withFetchWord 8 4) (fun t => (t.outq, t.pc)) = some ([4], 2) ∧
    decodeTableWord 8 4 = some (.output ⟨.positional, 0⟩) := by decide

/-! ### Witnesses: the hypotheses of each obligation are met -/

/-- A running machine with `rb = 7`, 40 in cell 3, 50 in cell 10, at `pc = 100`. -/
def spot : State :=
  { State.reset with mem := [(3, 40), (10, 50)], pc := 100, rb := 7, inq := [6, 8], status := .running,
                     pauseReq := some false }

/-- The same machine with a pause requested. -/
def spotPause : State := { spot with pauseReq := some true }

/-- The same machine with nothing in its queue. -/
def spotStarved : State := { spot with inq := [] }

theorem spot_readable_positional : Readable ⟨.positional, 0⟩ spot := by unfold Readable; decide

theorem spot_readable_relative : Readable ⟨.relative, -7⟩ spot := by unfold Readable; decide

theorem spot_readable_immediate : Readable ⟨.immediate, -8⟩ spot := by unfold Readable; decide

theorem witness_EncodeOfDecode : decode [121101, 5, -5, 0] =
    .ok (.add ⟨.immediate, 5⟩ ⟨.immediate, -5⟩ ⟨.relative, 0⟩) := by decide

theorem witness_HighDigitsIgnored : Opcode.ofNumber? (301 % 100) = some .add ∧
    Opcode.ofNumber? (99 % 100) = some .hlt := by decide

theorem witness_LengthByOpcodeField :
    (decode [1108, 1, 2, 3] = .ok (.eq ⟨.immediate, 1⟩ ⟨.immediate, 2⟩ ⟨.positional, 3⟩) ∧
      (1108 : Int) % 100 ∈ [1, 2, 7, 8]) ∧
    (decode [5, 1, 2, 3] = .ok (.jnz ⟨.positional, 1⟩ ⟨.positional, 2⟩) ∧ (5 : Int) % 100 ∈ [5, 6]) ∧
    (decode [209, 1, 2, 3] = .ok (.arb ⟨.relative, 1⟩) ∧ (209 : Int) % 100 ∈ [3, 4, 9]) ∧
    (decode [199, 1, 2, 3] = .ok .hlt ∧ (199 : Int) % 100 = 99) := by decide

theorem witness_MemWriteStoresOneCell : Memory.wf spot.mem = true ∧ (-1 : Int) < 0 ∧ (0 : Int) ≤ 0 := by decide

theorem witness_UnwrittenCellsReadZero : (0 : Int) ≤ 0 ∧ ∀ p ∈ ([(0, 5), (2, 6)] : List (Nat × Int)), p.1 ≠ 1 := by
  decide

theorem witness_MemoryIsItsContents : Memory.wf [(3, 40)] = true ∧
    Memory.wf (Memory.write (Memory.write [] 3 40) 5 0) = true ∧
    ∀ a, Memory.read [(3, 40)] a = Memory.read (Memory.write (Memory.write [] 3 40) 5 0) a :=
  ⟨by decide, by decide, fun _ => rfl⟩

theorem witness_ReadOperandByMode : (0 : Int) ≤ 0 ∧ (-1 : Int) < 0 ∧ 0 ≤ (-7 : Int) + spot.rb ∧
    (-8 : Int) + spot.rb < 0 := by decide

theorem witness_WriteOperandByMode : (0 : Int) ≤ 0 ∧ (-1 : Int) < 0 ∧ 0 ≤ (-7 : Int) + spot.rb ∧
    (-8 : Int) + spot.rb < 0 := by decide

/-- For `ThreeOperandResult`, in AddStoresExactSum, MulStoresExactProduct, LessThanStoresTruth, EqualsStoresTruth. -/
theorem witness_ThreeOperandResult : Readable ⟨.positional, 0⟩ spot ∧ Readable ⟨.relative, -7⟩ spot ∧
    effectiveAddress ⟨.relative, -7⟩ spot = some ((0 : Nat) : Int) :=
  ⟨spot_readable_positional, spot_readable_relative, by decide⟩

/-- For `ThreeOperandFaults`, clause by clause, in the same four obligations. -/
theorem witness_ThreeOperandFaults : 0 ≤ spot.pc ∧
    (effectiveAddress ⟨.positional, -1⟩ spot = some (-1) ∧ (-1 : Int) < 0) ∧
    (Readable ⟨.immediate, -8⟩ spot ∧ effectiveAddress ⟨.relative, -8⟩ spot = some (-1)) ∧
    (Readable ⟨.positional, 0⟩ spot ∧ Readable ⟨.relative, -7⟩ spot ∧
      (Operand.mk .immediate 0).mode = .immediate) ∧
    (Readable ⟨.positional, 0⟩ spot ∧ Readable ⟨.relative, -7⟩ spot ∧
      effectiveAddress ⟨.relative, -8⟩ spot = some (-1)) :=
  ⟨by decide, by decide, ⟨spot_readable_immediate, by decide⟩,
    ⟨spot_readable_positional, spot_readable_relative, rfl⟩,
    ⟨spot_readable_positional, spot_readable_relative, by decide⟩⟩

theorem witness_InputStoresQueueHead :
    (spot.inq = 6 :: [8] ∧ effectiveAddress ⟨.relative, -7⟩ spot = some ((0 : Nat) : Int)) ∧
    (0 ≤ spotStarved.pc ∧ spotStarved.inq = []) ∧
    (0 ≤ spot.pc ∧ spot.inq ≠ [] ∧ (Operand.mk .immediate 0).mode = .immediate) ∧
    (0 ≤ spot.pc ∧ spot.inq ≠ [] ∧ effectiveAddress ⟨.positional, -1⟩ spot = some (-1) ∧ (-1 : Int) < 0) := by
  decide

theorem witness_OutputAppendsThenPauses :
    (Readable ⟨.positional, 0⟩ spot ∧ spot.pauseReq ≠ some true) ∧
    (Readable ⟨.positional, 0⟩ spotPause ∧ spotPause.pauseReq = some true) ∧
    (0 ≤ spot.pc ∧ effectiveAddress ⟨.positional, -1⟩ spot = some (-1) ∧ (-1 : Int) < 0) :=
  ⟨⟨spot_readable_positional, by decide⟩, ⟨spot_readable_positional, rfl⟩, by decide⟩

theorem witness_JumpIfTrueRedirects :
    (Readable ⟨.relative, -4⟩ spot ∧ valueOf ⟨.relative, -4⟩ spot ≠ 0 ∧ Readable ⟨.immediate, -8⟩ spot) ∧
    (Readable ⟨.positional, 0⟩ spot ∧ valueOf ⟨.positional, 0⟩ spot = 0) ∧
    (0 ≤ spot.pc ∧ effectiveAddress ⟨.positional, -1⟩ spot = some (-1) ∧ (-1 : Int) < 0) ∧
    (Readable ⟨.immediate, -8⟩ spot ∧ valueOf ⟨.immediate, -8⟩ spot ≠ 0 ∧
      effectiveAddress ⟨.relative, -8⟩ spot = some (-1)) :=
  ⟨⟨by unfold Readable; decide, by decide, spot_readable_immediate⟩, ⟨spot_readable_positional, by decide⟩, by decide,
    ⟨spot_readable_immediate, by decide, by decide⟩⟩

theorem witness_JumpIfFalseRedirects :
    (Readable ⟨.positional, 0⟩ spot ∧ valueOf ⟨.positional, 0⟩ spot = 0 ∧ Readable ⟨.immediate, -8⟩ spot) ∧
    (Readable ⟨.immediate, -8⟩ spot ∧ valueOf ⟨.immediate, -8⟩ spot ≠ 0) ∧
    (0 ≤ spot.pc ∧ effectiveAddress ⟨.positional, -1⟩ spot = some (-1) ∧ (-1 : Int) < 0) ∧
    (Readable ⟨.positional, 0⟩ spot ∧ valueOf ⟨.positional, 0⟩ spot = 0 ∧
      effectiveAddress ⟨.relative, -8⟩ spot = some (-1)) :=
  ⟨⟨spot_readable_positional, by decide, spot_readable_immediate⟩, ⟨spot_readable_immediate, by decide⟩, by decide,
    ⟨spot_readable_positional, by decide, by decide⟩⟩

theorem witness_AdjustBaseAdds : Readable ⟨.relative, -7⟩ spot ∧
    (0 ≤ spot.pc ∧ effectiveAddress ⟨.relative, -8⟩ spot = some (-1) ∧ (-1 : Int) < 0) :=
  ⟨spot_readable_relative, by decide⟩

theorem witness_ThreeOperandFrame :
    (∃ t, exec (.lt ⟨.immediate, 1⟩ ⟨.immediate, 2⟩ ⟨.positional, 0⟩) spot = .next t ∧ t.status = .running) ∧
    effectiveAddress ⟨.positional, 0⟩ spot ≠ some ((3 : Nat) : Int) :=
  ⟨⟨_, rfl, by decide⟩, by decide⟩

theorem witness_InputFrame : (∃ t, exec (.input ⟨.relative, -7⟩) spot = .next t ∧ t.inq = [8]) ∧
    effectiveAddress ⟨.relative, -7⟩ spot ≠ some ((3 : Nat) : Int) :=
  ⟨⟨_, rfl, by decide⟩, by decide⟩

theorem witness_OutputFrame : ∃ t, exec (.output ⟨.relative, -4⟩) spotPause = .next t ∧ t.outq = [40] :=
  ⟨_, rfl, by decide⟩

theorem witness_JumpAndBaseFrame :
    (∃ t, exec (.jnz ⟨.positional, 3⟩ ⟨.immediate, -1⟩) spot = .next t ∧ t.pc = -1) ∧
    (∃ t, exec (.arb ⟨.relative, -4⟩) spot = .next t ∧ t.rb = 47) ∧
    (Instr.jnz ⟨.positional, 3⟩ ⟨.immediate, -1⟩ ≠ .arb ⟨.positional, 3⟩) :=
  ⟨⟨_, rfl, by decide⟩, ⟨_, rfl, by decide⟩, by decide⟩

theorem witness_OnlyAdjustMovesBase : ∃ t, exec (.arb ⟨.immediate, -8⟩) spot = .next t ∧ t.rb ≠ spot.rb :=
  ⟨_, rfl, by decide⟩

theorem witness_StreamsMoveByTheirInstruction :
    (∃ t, exec (.input ⟨.positional, 0⟩) spot = .next t ∧ t.inq ≠ spot.inq) ∧
    (∃ t, exec (.output ⟨.immediate, 0⟩) spot = .next t ∧ t.outq ≠ spot.outq) :=
  ⟨⟨_, rfl, by decide⟩, ⟨_, rfl, by decide⟩⟩

theorem witness_AdvanceUnlessJump :
    (∃ t, exec (.eq ⟨.immediate, 0⟩ ⟨.immediate, 0⟩ ⟨.positional, 0⟩) spot = .next t ∧ t.status ≠ .faulted ∧
      t.jflag = false) ∧
    (∃ t, exec (.jz ⟨.immediate, 0⟩ ⟨.positional, 3⟩) spot = .next t ∧ t.status ≠ .faulted ∧ t.jflag = true) :=
  ⟨⟨_, rfl, by decide, by decide⟩, ⟨_, rfl, by decide, by decide⟩⟩

theorem witness_ImmediateTargetNeverWritten :
    Instr.writeOperand? (.input ⟨.immediate, 0⟩) = some (0, ⟨.immediate, 0⟩) ∧
    (Operand.mk .immediate 0).mode = .immediate := by decide

/-- A running machine with a program at address 0. -/
def runs (program : Words) : State := machine program 0 0 [] false

theorem witness_StepRunsDecoded : (runs [1005, 20, 4]).status = .running ∧ 0 ≤ (runs [1005, 20, 4]).pc ∧
    decode (Memory.cells (runs [1005, 20, 4]).mem (runs [1005, 20, 4]).pc.toNat 4) =
      .ok (.jnz ⟨.positional, 20⟩ ⟨.immediate, 4⟩) := by decide

theorem witness_NegativePcFaultsAtFetch : (machine [] (-1) 0 [] false).status = .running ∧
    (machine [] (-1) 0 [] false).pc < 0 := by decide

theorem witness_UnknownOpcodeRaised :
    ((runs [-1]).status = .running ∧ 0 ≤ (runs [-1]).pc ∧ wordAt (runs [-1]) < 0) ∧
    (0 ≤ (runs []).pc ∧ wordAt (runs []) % 100 ∉ [1, 2, 3, 4, 5, 6, 7, 8, 9, 99]) ∧
    (∃ t r, step (runs [98]) = .next t ∧ t.status = .faulted ∧ t.fault = some r ∧ r.kind = .unknownOpcode) :=
  ⟨by decide, by decide, _, _, rfl, by decide, rfl, by decide⟩

theorem witness_InvalidModeRaised :
    ((runs [13001]).status = .running ∧ 0 ≤ (runs [13001]).pc ∧ 0 ≤ wordAt (runs [13001]) ∧
      Opcode.ofNumber? (wordAt (runs [13001]) % 100).toNat = some .add ∧ 1 < Opcode.operandCount .add ∧
      2 < dig (wordAt (runs [13001])).toNat (2 + 1) ∧
      ∀ j < 1, dig (wordAt (runs [13001])).toNat (2 + j) ≤ 2) ∧
    (∃ t r, step (runs [903]) = .next t ∧ t.status = .faulted ∧ t.fault = some r ∧ r.kind = .invalidMode 0 9) :=
  ⟨by decide, _, _, rfl, by decide, rfl, by decide⟩

theorem witness_FaultingStepCommitsNothing : (runs [3, 9]).status = .running ∧
    ∃ t, step (runs [3, 9]) = .next t ∧ t.status = .faulted :=
  ⟨rfl, _, rfl, by decide⟩

theorem witness_FaultRecordFields :
    (∃ t, step (runs [4, -1]) = .next t ∧ t.status = .faulted) ∧
    (∃ t, step (machine [] (-7) 0 [] false) = .next t ∧ t.status = .faulted) :=
  ⟨⟨_, rfl, by decide⟩, ⟨_, rfl, by decide⟩⟩

theorem witness_RunningStepStatus : (runs [99]).status = .running ∧ (runs [99]).fault = none := by decide

theorem witness_TerminalStatusStays :
    (∃ t, step { spot with status := .halted } = .next t) ∧
    (∃ t, hostCommand .drain { spot with status := .faulted } = .next t) ∧ Command.drain ≠ .reset :=
  ⟨⟨_, rfl⟩, ⟨_, rfl⟩, by decide⟩

theorem runs_inv (program : Words) : Inv (runs program) := by
  refine ⟨Memory.writeList_wf rfl 0 program, ?_, ?_, ?_, ?_, ?_, ?_, ?_⟩ <;> simp [runs, machine, State.reset]

theorem witness_StepKeepsInvariant : Inv (runs [104, 7]) ∧
    ∃ t, step (runs [104, 7]) = .next t ∧ t.outq = [7] :=
  ⟨runs_inv _, _, rfl, by decide⟩

/-- The machine after reset, with one value fed. -/
def fed : State := { State.reset with inq := [5] }

theorem fed_inv : Inv fed := by
  refine ⟨rfl, ?_, ?_, ?_, ?_, ?_, ?_, ?_⟩ <;> simp [fed, State.reset]

theorem witness_CommandKeepsInvariant : Inv fed ∧
    ∃ t, hostCommand (.load [99]) fed = .next t ∧ t.status = .loaded :=
  ⟨fed_inv, _, rfl, rfl⟩

theorem witness_OutputSinkNeverRead : ∃ t, step (runs [104, 7]) = .next t ∧ t.outq = [7] :=
  ⟨_, rfl, by decide⟩

theorem witness_FlagsCarryNothing :
    (∃ t, step (runs [104, 7]) = .next t ∧ t.status ≠ .faulted) ∧
    (∃ t, step (runs [0]) = .next t ∧ t.status = .faulted) :=
  ⟨⟨_, rfl, by decide⟩, ⟨_, rfl, by decide⟩⟩

theorem witness_FedValuesWaitTheirTurn : ∃ t, step (machine [3, 9] 0 0 [42] false) = .next t ∧
    t.status ≠ .faulted :=
  ⟨_, rfl, by decide⟩

theorem witness_LoadPlacesProgram : Inv fed ∧ fed.status = .idle := ⟨fed_inv, rfl⟩

theorem witness_PatchStoresOneCell : ({ State.reset with status := .loaded } : State).status = .loaded ∧
    (0 : Int) ≤ 0 ∧ (-1 : Int) < 0 := by decide

theorem witness_RunBeginsInvocation : ({ spot with status := .loaded } : State).status = .loaded ∧
    ({ spot with status := .paused } : State).status = .paused := by decide

theorem witness_FeedAndDrain : State.reset.status ≠ .running := by decide

theorem witness_DisabledCommandsRefused : spot.status ≠ .idle ∧ spot.status ≠ .loaded ∧
    (State.reset.status ≠ .loaded ∧ State.reset.status ≠ .paused) ∧
    (spot.status = .running ∧ Command.feed 1 ≠ .reset) := by decide

/-- Loaded with the one-instruction program Halt. -/
def loadedHalt : State := { State.reset with mem := [(0, 99)], status := .loaded }

theorem witness_InvocationEndsInThreeWays : ∃ t, runInvocation 1 true loadedHalt = some t ∧ t.status = .halted :=
  ⟨_, rfl, by decide⟩

/-- Paused before the same Halt: another status and another flag, everything else as in `loadedHalt`. -/
def pausedHalt : State := { loadedHalt with status := .paused, oflag := true }

theorem loadedHalt_inv : Inv loadedHalt := by
  refine ⟨rfl, ?_, ?_, ?_, ?_, ?_, ?_, ?_⟩ <;> simp [loadedHalt, State.reset, Config.entryPoint, Config.resetBase]

theorem pausedHalt_inv : Inv pausedHalt := by
  refine ⟨rfl, ?_, ?_, ?_, ?_, ?_, ?_, ?_⟩ <;> simp [pausedHalt, loadedHalt, State.reset]

theorem witness_InvocationEndUnique : Inv loadedHalt ∧ Inv pausedHalt ∧
    (loadedHalt.status = .loaded ∧ pausedHalt.status = .paused) ∧
    (pausedHalt.mem = loadedHalt.mem ∧ pausedHalt.pc = loadedHalt.pc ∧ pausedHalt.rb = loadedHalt.rb ∧
      pausedHalt.inq = loadedHalt.inq ∧ pausedHalt.outq = loadedHalt.outq) ∧
    (∃ t, runInvocation 1 true loadedHalt = some t) ∧ (∃ u, runInvocation 9 true pausedHalt = some u) :=
  ⟨loadedHalt_inv, pausedHalt_inv, by decide, by decide, ⟨_, rfl⟩, ⟨_, rfl⟩⟩

end Sys2Proof.Tests
end

/-!
PROOFS of the statements about the state (spec 10_state). First the memory and the invariant; then what follows from the
inversion lemma `exec_next`; then the two noninterference statements, which need the steps of two machines side by side.
-/
namespace Sys2Proof.Machine

/-! ### The memory is its contents -/

/-- A memory in canonical form that reads 0 everywhere is empty. -/
theorem Memory.eq_nil_of_read_zero {m : Memory} {lo : Nat} (h : Memory.wfFrom lo m = true)
    (zero : ∀ a, Memory.read m a = 0) : m = [] := by
  cases m with
  | nil => rfl
  | cons p m =>
    obtain ⟨b, w⟩ := p
    obtain ⟨-, hw, -⟩ := (Memory.wfFrom_cons lo b w m).mp h
    exact absurd (by simpa using zero b) hw

/-- The lowest address of a canonical memory is not below that of another that reads alike: the other would read 0
there. -/
theorem Memory.head_le {b c : Nat} {v w : Int} {m n : Memory} {lo : Nat}
    (hm : Memory.wfFrom lo ((b, v) :: m) = true) (hn : Memory.wfFrom lo ((c, w) :: n) = true)
    (same : ∀ a, Memory.read ((b, v) :: m) a = Memory.read ((c, w) :: n) a) : c ≤ b := by
  by_contra lt
  obtain ⟨-, hv, -⟩ := (Memory.wfFrom_cons lo b v m).mp hm
  have above : Memory.wfFrom c ((c, w) :: n) = true := by
    rw [Memory.wfFrom_cons] at hn ⊢
    exact ⟨le_rfl, hn.2⟩
  have zero := Memory.read_below above (Nat.not_le.mp lt)
  rw [← same b] at zero
  exact hv (by simpa using zero)

/-- Two memories in canonical form from one address on that read alike are equal. -/
theorem Memory.eq_of_read_eq {m n : Memory} {lo : Nat} (hm : Memory.wfFrom lo m = true)
    (hn : Memory.wfFrom lo n = true) (same : ∀ a, Memory.read m a = Memory.read n a) : m = n := by
  induction m generalizing n lo with
  | nil => exact (Memory.eq_nil_of_read_zero hn fun a => (same a).symm).symm
  | cons p m ih =>
    cases n with
    | nil => exact Memory.eq_nil_of_read_zero hm same
    | cons q n =>
      obtain ⟨b, v⟩ := p
      obtain ⟨c, w⟩ := q
      obtain rfl : b = c := le_antisymm (Memory.head_le hn hm fun a => (same a).symm) (Memory.head_le hm hn same)
      obtain rfl : v = w := by simpa using same b
      obtain ⟨-, -, hm'⟩ := (Memory.wfFrom_cons lo b v m).mp hm
      obtain ⟨-, -, hn'⟩ := (Memory.wfFrom_cons lo b v n).mp hn
      have tails : ∀ a, Memory.read m a = Memory.read n a := fun a => by
        by_cases at_head : b = a
        · rw [Memory.read_below hm' (by omega), Memory.read_below hn' (by omega)]
        · simpa [at_head] using same a
      rw [ih hm' hn' tails]

/-- Settles O9: induction on both memories, whose heads are at one address and hold one word. -/
theorem memoryIsItsContents : Obligations.MemoryIsItsContents :=
  fun _ _ hm hn same => Memory.eq_of_read_eq hm hn same

/-! ### The invariant -/

/-- Settles O39. -/
theorem resetIsInvariant : Obligations.ResetIsInvariant where
  memory := Memory.wf_nil
  invocation := by decide
  record := by decide
  stopped := nofun
  flags := by decide
  idle _ := by decide
  loaded := nofun
  paused := nofun

/-- The invariant of a state that a step without a fatal error ends in: still Running, or Halted, or Paused by
Output. -/
theorem inv_of_no_fault {t : State} (memory : Memory.wf t.mem = true) (record : t.fault = none)
    (flags : ¬(t.jflag = true ∧ t.oflag = true))
    (ended : (t.status = .running ∧ t.pauseReq.isSome = true) ∨ (t.status = .halted ∧ t.pauseReq = none) ∨
      (t.status = .paused ∧ t.pauseReq = none ∧ t.oflag = true)) : Inv t where
  memory := memory
  invocation := by obtain ⟨st, arg⟩ | ⟨st, arg⟩ | ⟨st, arg, -⟩ := ended <;> simp [st, arg]
  record := by obtain ⟨st, -⟩ | ⟨st, -⟩ | ⟨st, -, -⟩ := ended <;> simp [st, record]
  stopped r hr := by simp [record] at hr
  flags := flags
  idle st := by simp [st] at ended
  loaded st := by simp [st] at ended
  paused st := by
    simp only [st, reduceCtorEq, false_and, false_or, true_and] at ended
    exact ended.2

/-- Taking a fatal error keeps the invariant: the record it writes holds `pc`. -/
theorem raiseFatal_inv {s : State} (h : Inv s) (e : FatalError) : Inv (raiseFatal e s) where
  memory := h.memory
  invocation := by simp [raiseFatal_eq]
  record := by simp [raiseFatal_eq]
  stopped r hr := by
    obtain rfl : faultRecord e s = r := by simpa [raiseFatal_eq] using hr
    rfl
  flags := h.flags
  idle := nofun
  loaded := nofun
  paused := nofun

/-- An instruction that completes in a running machine keeps the invariant. -/
theorem Completes.inv {i : Instr} {s t : State} (h : Inv s) (run : s.status = .running) (done : Completes s i t) :
    Inv t := by
  have arg : s.pauseReq.isSome = true := h.invocation.mpr run
  have clean : s.fault = none := by
    have := h.record
    simpa [run] using this
  cases done with
  | store _ _ _ _ a v => exact inv_of_no_fault (Memory.write_wf h.memory a.toNat v) clean (by simp) (.inl ⟨run, arg⟩)
  | input _ v _ a => exact inv_of_no_fault (Memory.write_wf h.memory a.toNat v) clean (by simp) (.inl ⟨run, arg⟩)
  | output | jump | pass | adjust => exact inv_of_no_fault h.memory clean (by simp) (.inl ⟨run, arg⟩)
  | pause => exact inv_of_no_fault h.memory clean (by simp) (.inr (.inr ⟨rfl, rfl, rfl⟩))
  | halt => exact inv_of_no_fault h.memory clean (by simp) (.inr (.inl ⟨rfl, rfl⟩))

/-- Settles O40: a step waits, takes a fatal error, or completes an instruction. -/
theorem stepKeepsInvariant : Obligations.StepKeepsInvariant := by
  intro s t h hst
  by_cases run : s.status = .running
  · obtain ⟨i, -, eq⟩ | ⟨e, -, eq⟩ := step_running run <;> rw [eq] at hst
    · obtain ⟨e, -, rfl⟩ | done := exec_next hst
      · exact raiseFatal_inv h e
      · exact done.inv h run
    · cases hst
      exact raiseFatal_inv h e
  · rw [step_not_running run] at hst
    cases hst
    exact h

/-! ### Who writes `rb` and who moves the streams -/

/-- Settles O26: of the cases of `exec_next`, only the adjustment has another `rb`. -/
theorem onlyAdjustMovesBase : Obligations.OnlyAdjustMovesBase := by
  intro i s t h moved
  obtain ⟨e, -, rfl⟩ | done := exec_next h
  · exact absurd rfl moved
  · cases done with
    | adjust o readable => exact ⟨o, rfl, readable, rfl⟩
    | store | input | output | pause | jump | pass | halt => exact absurd rfl moved

/-- Settles O27: of the cases of `exec_next`, only Input has another queue, and only Output, paused or not, another
sink. -/
theorem streamsMoveByTheirInstruction : Obligations.StreamsMoveByTheirInstruction := by
  intro i s t h
  obtain ⟨e, -, rfl⟩ | done := exec_next h
  · exact ⟨absurd rfl, absurd rfl⟩
  · cases done with
    | input d v rest a head => exact ⟨fun _ => ⟨d, v, rfl, head⟩, absurd rfl⟩
    | output o | pause o => exact ⟨absurd rfl, fun _ => ⟨o, rfl, rfl⟩⟩
    | store | jump | pass | adjust | halt => exact ⟨absurd rfl, absurd rfl⟩

/-! ### The rule of each instruction -/

/-- The rule of an instruction (spec 46_step_cycle R105, point 4): what it makes of the state once the flags are cleared
and before the advance. Halt ends the invocation instead and has none (`exec_eq_finishStep` leaves it out). -/
def ruleOf (i : Instr) (s : State) : Except FatalError State :=
  match i with
  | .add s0 s1 d => computeToMemory (fun a b => a + b) s0 s1 d s
  | .mul s0 s1 d => computeToMemory (fun a b => a * b) s0 s1 d s
  | .input d => takeInput d s
  | .output o => putOutput o s
  | .jnz c g => jumpWhen (fun v => decide (v ≠ 0)) c g s
  | .jz c g => jumpWhen (fun v => decide (v = 0)) c g s
  | .lt s0 s1 d => computeToMemory (fun a b => truthWord (decide (a < b))) s0 s1 d s
  | .eq s0 s1 d => computeToMemory (fun a b => truthWord (decide (a = b))) s0 s1 d s
  | .arb o => adjustBase o s
  | .hlt => .ok s

/-- Every instruction but Halt is its rule between the clearing of the flags and the end of the step. -/
theorem exec_eq_finishStep {i : Instr} (ne : i ≠ .hlt) (s : State) :
    exec i s = finishStep i.opcode s (ruleOf i s.clearFlags) := by
  cases i with
  | hlt => exact absurd rfl ne
  | add | mul | input | output | jnz | jz | lt | eq | arb => rfl

/-- Halt, in every state. -/
theorem exec_hlt (s : State) : exec .hlt s = .next (s.clearFlags.endInvocation .halted) := rfl

/-- No rule changes the status: only the end of a step does. -/
theorem ruleOf_status {i : Instr} {s u : State} (h : ruleOf i s = .ok u) : u.status = s.status := by
  cases i with
  | add | mul | lt | eq =>
    obtain ⟨_, _, _, -, -, -, -, rfl⟩ := computeToMemory_ok h
    rfl
  | input =>
    obtain ⟨_, _, _, -, -, -, rfl⟩ := takeInput_ok h
    rfl
  | output =>
    obtain ⟨-, rfl⟩ := putOutput_ok h
    rfl
  | jnz | jz => obtain ⟨-, ⟨-, -, rfl⟩ | ⟨-, rfl⟩⟩ := jumpWhen_ok h <;> rfl
  | arb =>
    obtain ⟨-, rfl⟩ := adjustBase_ok h
    rfl
  | hlt =>
    cases h
    rfl

/-! ### The run flags carry nothing -/

/-- A running machine steps by the instruction it fetched. -/
theorem step_eq_exec {s : State} {i : Instr} (run : s.status = .running) (h : fetchInstr s = .ok i) :
    step s = exec i s := by
  simp [step, performsStep, run, h]

/-- A running machine takes the fatal error of the fetch or the decode. -/
theorem step_eq_raiseFatal {s : State} {e : FatalError} (run : s.status = .running) (h : fetchInstr s = .error e) :
    step s = .next (raiseFatal e s) := by
  simp [step, performsStep, run, h]

/-- The state with other values of the two run flags. -/
def State.withFlags (s : State) (j o : Bool) : State := { s with jflag := j, oflag := o }

/-- Clearing the flags forgets them. -/
@[simp] theorem State.withFlags_clearFlags (s : State) (j o : Bool) : (s.withFlags j o).clearFlags = s.clearFlags := rfl

/-- Fetch and decode do not look at the flags. -/
@[simp] theorem fetchInstr_withFlags (s : State) (j o : Bool) : fetchInstr (s.withFlags j o) = fetchInstr s := rfl

/-- A fatal error keeps the flags. -/
@[simp] theorem raiseFatal_withFlags (e : FatalError) (s : State) (j o : Bool) :
    raiseFatal e (s.withFlags j o) = (raiseFatal e s).withFlags j o := rfl

/-- Neither the advance nor the pause check takes a fatal error. -/
theorem pauseCheck_advance_not_faulted {op : Opcode} {u : State} (h : u.status ≠ .faulted) :
    (pauseCheck (advance op u)).status ≠ .faulted := by
  have advanced : (advance op u).status ≠ .faulted := by rwa [advance_eq]
  unfold pauseCheck
  split_ifs
  · simp
  · exact advanced

/-- An instruction started with other flags ends in the same state, unless it faults, and then keeps those flags. -/
theorem exec_withFlags {i : Instr} {s t : State} (j o : Bool) (run : s.status = .running) (h : exec i s = .next t) :
    (t.status ≠ .faulted ∧ exec i (s.withFlags j o) = .next t) ∨
      (t.status = .faulted ∧ exec i (s.withFlags j o) = .next (t.withFlags j o)) := by
  by_cases halt : i = .hlt
  · subst halt
    rw [exec_hlt] at h ⊢
    cases h
    exact .inl ⟨nofun, rfl⟩
  · rw [exec_eq_finishStep halt] at h ⊢
    rw [State.withFlags_clearFlags]
    obtain ⟨u, hu, rfl⟩ | ⟨e, he, rfl⟩ := finishStep_next h
    · have going : u.status ≠ .faulted := by simp [ruleOf_status hu, run]
      exact .inl ⟨pauseCheck_advance_not_faulted going, by rw [hu]; rfl⟩
    · exact .inr ⟨rfl, by rw [he]; rfl⟩

/-- A running step started with other flags ends in the same state, unless it faults, and then keeps those flags. -/
theorem step_withFlags {s t : State} (j o : Bool) (run : s.status = .running) (h : step s = .next t) :
    (t.status ≠ .faulted ∧ step (s.withFlags j o) = .next t) ∨
      (t.status = .faulted ∧ step (s.withFlags j o) = .next (t.withFlags j o)) := by
  have run' : (s.withFlags j o).status = .running := run
  obtain ⟨i, hi, eq⟩ | ⟨e, he, eq⟩ := step_running run <;> rw [eq] at h
  · rw [step_eq_exec run' (i := i) hi]
    exact exec_withFlags j o run h
  · cases h
    exact .inr ⟨rfl, step_eq_raiseFatal run' he⟩

/-- Settles O43: the flags are cleared before the instruction's rule sees them, and a fatal error discards the clearing. -/
theorem flagsCarryNothing : Obligations.FlagsCarryNothing := by
  intro s t j o run h
  obtain ⟨ok, eq⟩ | ⟨bad, eq⟩ := step_withFlags j o run h
  · exact ⟨fun _ => eq, fun bad => absurd bad ok⟩
  · exact ⟨fun ok => absurd bad ok, fun _ => eq⟩

/-! ### The output sink is never read -/

/-- The state whose sink held `p` before what it holds. -/
def State.behindOutput (p : Words) (s : State) : State := s.setOutq (p ++ s.outq)

/-- An outcome with its next state changed by `f`. -/
def mapNext (f : State → State) (x : Host.Outcome State Fault Refusal) : Host.Outcome State Fault Refusal :=
  match x with
  | .next t => .next (f t)
  | .fault r => .fault r
  | .refused r => .refused r

/-- A changed next state comes from a next state. -/
theorem mapNext_eq_next {f : State → State} {x : Host.Outcome State Fault Refusal} {t : State} :
    mapNext f x = .next t ↔ ∃ u, x = .next u ∧ f u = t := by
  cases x <;> simp [mapNext]

section
variable (p : Words)

/-- Reading an operand does not look at the sink. -/
@[simp] theorem readOperand_behindOutput (i : Nat) (o : Operand) (s : State) :
    readOperand i o (s.behindOutput p) = readOperand i o s := rfl

/-- Writing through an operand neither reads nor changes the sink. -/
@[simp] theorem writeOperand_behindOutput (i : Nat) (o : Operand) (v : Int) (s : State) :
    writeOperand i o v (s.behindOutput p) = (writeOperand i o v s).map (State.behindOutput p) := by
  have ea : effectiveAddress o (s.behindOutput p) = effectiveAddress o s := rfl
  unfold writeOperand
  rw [ea]
  cases effectiveAddress o s with
  | none => rfl
  | some a =>
    dsimp only [memWrite]
    split_ifs <;> rfl

/-- The three-operand shape neither reads nor changes the sink. -/
theorem computeToMemory_behindOutput (f : Int → Int → Int) (s0 s1 d : Operand) (s : State) :
    computeToMemory f s0 s1 d (s.behindOutput p) = (computeToMemory f s0 s1 d s).map (State.behindOutput p) := by
  unfold computeToMemory
  rw [readOperand_behindOutput, readOperand_behindOutput]
  cases readOperand 0 s0 s with
  | error e => rfl
  | ok a =>
    cases readOperand 1 s1 s with
    | error e => rfl
    | ok b => exact writeOperand_behindOutput p 2 d (f a b) s

/-- The rule of Input neither reads nor changes the sink. -/
theorem takeInput_behindOutput (d : Operand) (s : State) :
    takeInput d (s.behindOutput p) = (takeInput d s).map (State.behindOutput p) := by
  have queue : (s.behindOutput p).inq = s.inq := rfl
  unfold takeInput
  rw [queue]
  cases s.inq with
  | nil => rfl
  | cons v rest =>
    simp only [writeOperand_behindOutput]
    cases writeOperand 0 d v s <;> rfl

/-- The rule of Output appends the same value, whatever the sink holds. -/
theorem putOutput_behindOutput (o : Operand) (s : State) :
    putOutput o (s.behindOutput p) = (putOutput o s).map (State.behindOutput p) := by
  unfold putOutput
  rw [readOperand_behindOutput]
  cases readOperand 0 o s with
  | error e => rfl
  | ok v => simp [Except.map, State.behindOutput, State.setOutq, State.setOflag]

/-- The rule of the jumps neither reads nor changes the sink. -/
theorem jumpWhen_behindOutput (taken : Int → Bool) (c g : Operand) (s : State) :
    jumpWhen taken c g (s.behindOutput p) = (jumpWhen taken c g s).map (State.behindOutput p) := by
  unfold jumpWhen
  rw [readOperand_behindOutput, readOperand_behindOutput]
  cases readOperand 0 c s with
  | error e => rfl
  | ok v =>
    dsimp only
    split_ifs
    · cases readOperand 1 g s <;> rfl
    · rfl

/-- The rule of Adjust-Relative-Base neither reads nor changes the sink. -/
theorem adjustBase_behindOutput (o : Operand) (s : State) :
    adjustBase o (s.behindOutput p) = (adjustBase o s).map (State.behindOutput p) := by
  unfold adjustBase
  rw [readOperand_behindOutput]
  cases readOperand 0 o s <;> rfl

/-- No instruction's rule reads the sink, and what it appends goes behind what is there. -/
theorem ruleOf_behindOutput (i : Instr) (s : State) :
    ruleOf i (s.behindOutput p) = (ruleOf i s).map (State.behindOutput p) := by
  cases i with
  | add s0 s1 d | mul s0 s1 d | lt s0 s1 d | eq s0 s1 d => exact computeToMemory_behindOutput p _ s0 s1 d s
  | input d => exact takeInput_behindOutput p d s
  | output o => exact putOutput_behindOutput p o s
  | jnz c g | jz c g => exact jumpWhen_behindOutput p _ c g s
  | arb o => exact adjustBase_behindOutput p o s
  | hlt => rfl

/-- The advance does not look at the sink. -/
theorem advance_behindOutput (op : Opcode) (s : State) :
    advance op (s.behindOutput p) = (advance op s).behindOutput p := by
  rw [advance_eq, advance_eq]
  rfl

/-- The pause check does not look at the sink. -/
theorem pauseCheck_behindOutput (s : State) : pauseCheck (s.behindOutput p) = (pauseCheck s).behindOutput p :=
  (apply_ite (State.behindOutput p) (s.pauseReq = some true ∧ s.oflag = true) (s.endInvocation .paused) s).symm

/-- The end of a step does not look at the sink. -/
theorem finishStep_behindOutput (op : Opcode) (s : State) (r : Except FatalError State) :
    finishStep op (s.behindOutput p) (r.map (State.behindOutput p)) =
      mapNext (State.behindOutput p) (finishStep op s r) := by
  cases r with
  | ok u => simp [finishStep, mapNext, Except.map, advance_behindOutput, pauseCheck_behindOutput]
  | error e => rfl

/-- No instruction reads the sink. -/
theorem exec_behindOutput (i : Instr) (s : State) :
    exec i (s.behindOutput p) = mapNext (State.behindOutput p) (exec i s) := by
  by_cases halt : i = .hlt
  · subst halt
    rfl
  · have cleared : (s.behindOutput p).clearFlags = s.clearFlags.behindOutput p := rfl
    rw [exec_eq_finishStep halt, exec_eq_finishStep halt, cleared, ruleOf_behindOutput, finishStep_behindOutput]

/-- No step reads the sink: with `p` in front of it, the step does the same behind `p`. -/
theorem step_behindOutput (s : State) : step (s.behindOutput p) = mapNext (State.behindOutput p) (step s) := by
  have perform : performsStep (s.behindOutput p) = performsStep s := rfl
  have fetch : fetchInstr (s.behindOutput p) = fetchInstr s := rfl
  unfold step
  rw [perform, fetch]
  split_ifs
  · cases fetchInstr s with
    | ok i => exact exec_behindOutput p i s
    | error e => rfl
  · rfl

end

/-- A sink's whole content is in front of an empty sink. -/
theorem setOutq_eq_behindOutput (s : State) (q : Words) : s.setOutq q = (s.setOutq []).behindOutput q := by
  simp [State.behindOutput, State.setOutq]

/-- Settles O42: both machines do behind their sinks what the machine with an empty sink does, and that machine's sink
afterwards is what the step produced. -/
theorem outputSinkNeverRead : Obligations.OutputSinkNeverRead := by
  intro s t q h
  have own : s = (s.setOutq []).behindOutput s.outq := setOutq_eq_behindOutput s s.outq
  rw [own, step_behindOutput, mapNext_eq_next] at h
  obtain ⟨u, hu, rfl⟩ := h
  refine ⟨u.outq, rfl, ?_⟩
  calc step (s.setOutq q)
    _ = mapNext (State.behindOutput q) (step (s.setOutq [])) := by
      rw [setOutq_eq_behindOutput, step_behindOutput]
    _ = .next (u.setOutq (q ++ u.outq)) := by
      rw [hu]
      rfl

end Sys2Proof.Machine

/-!
PROOFS of the statements about the memory (spec 20_memory): what one write does at the addresses it accepts and refuses,
and what any sequence of writes leaves.
-/
namespace Sys2Proof.Machine

/-! ### One write -/

/-- Settles O7: a write that is accepted has `Memory.write` as its memory, which is canonical and reads the value back. -/
theorem memWriteStoresOneCell : Obligations.MemWriteStoresOneCell := by
  intro s a v x canonical
  refine ⟨fun neg => memWrite_error.mpr ⟨neg, rfl⟩, fun nonneg => ?_⟩
  refine ⟨_, memWrite_ok.mpr ⟨nonneg, rfl⟩, rfl, Memory.write_wf canonical a.toNat v, fun b => ?_⟩
  have same_cell : b = a.toNat ↔ (b : Int) = a := by omega
  simp only [State.setMem_mem, Memory.read_write canonical, same_cell]

/-! ### A sequence of writes -/

/-- A sequence of writes leaves a cell that none of them names; the memory need not be canonical. -/
theorem Memory.read_foldl_write_ne (ws : List (Nat × Int)) (m : Memory) {a : Nat} (unnamed : ∀ p ∈ ws, p.1 ≠ a) :
    Memory.read (ws.foldl (fun m p => Memory.write m p.1 p.2) m) a = Memory.read m a := by
  induction ws generalizing m with
  | nil => rfl
  | cons p ws ih =>
    obtain ⟨head, tail⟩ := List.forall_mem_cons.mp unnamed
    rw [List.foldl_cons, ih _ tail, Memory.read_write_ne m p.2 head.symm]

/-- Settles O8: the accesses fail at negative addresses only, and the memory after reset is empty. -/
theorem unwrittenCellsReadZero : Obligations.UnwrittenCellsReadZero := by
  refine ⟨fun s a v x nonneg => ⟨?_, ?_⟩, fun ws a unnamed => ?_⟩
  · exact memRead_ok.mpr ⟨nonneg, rfl⟩
  · exact ⟨_, memWrite_ok.mpr ⟨nonneg, rfl⟩⟩
  · rw [Memory.read_foldl_write_ne ws _ unnamed]
    exact Memory.read_nil a

end Sys2Proof.Machine

/-!
PROOFS of the statements about the encoding (spec 30_encoding). First the decimal digits and the mode digits of a list
of operands; then the two round trips; then the opcode field alone.
-/
namespace Sys2Proof

/-! ### Decimal digits -/

/-- The digits from position 1 on are those of the number without its units digit. -/
theorem dig_succ (v k : Nat) : dig v (k + 1) = dig (v / 10) k := by
  unfold dig
  rw [pow_succ', ← Nat.div_div_eq_div_mul]

/-- The digits of `n` above one digit `d`. -/
theorem dig_add_ten_mul {d : Nat} (hd : d < 10) (n k : Nat) : dig (d + 10 * n) (k + 1) = dig n k := by
  have shift : (d + 10 * n) / 10 = n := by omega
  rw [dig_succ, shift]

/-- The digits from position 2 on are those of the word without its two low digits. -/
theorem dig_two_add (v k : Nat) : dig v (2 + k) = dig (v / 100) k := by
  rw [Nat.add_comm 2 k, dig_succ v (k + 1), dig_succ (v / 10) k, Nat.div_div_eq_div_mul]

/-- A digit below position `n` does not see what is added from position `n` on. -/
theorem dig_add_pow_mul {j n : Nat} (h : j < n) (v k : Nat) : dig (v + 10 ^ n * k) j = dig v j := by
  obtain ⟨m, rfl⟩ := Nat.exists_eq_add_of_lt h
  have split : v + 10 ^ (j + m + 1) * k = v + 10 ^ j * (10 * (10 ^ m * k)) := by ring
  unfold dig
  rw [split, Nat.add_mul_div_left _ _ (by positivity), Nat.add_mul_mod_self_left]

/-! ### The mode digits of a list of operands -/

/-- The place of the first mode digit is a factor. -/
theorem modeDigits_eq_mul (place : Nat) (os : List Operand) : modeDigits place os = place * modeDigits 1 os := by
  induction os generalizing place with
  | nil => rfl
  | cons o os ih =>
    simp only [modeDigits]
    rw [ih (10 * place), ih (10 * 1)]
    ring

/-- The first operand's mode is the units digit, those of the others are the digits above it. -/
theorem modeDigits_cons (o : Operand) (os : List Operand) :
    modeDigits 1 (o :: os) = o.mode.digit + 10 * modeDigits 1 os := by
  simp only [modeDigits]
  rw [modeDigits_eq_mul (10 * 1)]
  ring

/-- Digit `k` of the mode digits is the mode of operand `k`. -/
theorem dig_modeDigits {os : List Operand} {k : Nat} (h : k < os.length) :
    dig (modeDigits 1 os) k = os[k].mode.digit := by
  induction os generalizing k with
  | nil => simp at h
  | cons o os ih =>
    have small := o.mode.digit_le
    rw [modeDigits_cons]
    cases k with
    | zero => simp [dig]; omega
    | succ k =>
      rw [dig_add_ten_mul (by omega)]
      exact ih (by simpa using h)

/-- The mode digits of operands are the last digits of every number that has their modes as its digits. -/
theorem modeDigits_eq_mod {os : List Operand} {v : Nat}
    (modes : ∀ k (h : k < os.length), dig v k = os[k].mode.digit) : modeDigits 1 os = v % 10 ^ os.length := by
  induction os generalizing v with
  | nil => simp [modeDigits, Nat.mod_one]
  | cons o os ih =>
    have units : v % 10 = o.mode.digit := by
      have first := modes 0 (Nat.succ_pos _)
      rwa [dig, pow_zero, Nat.div_one] at first
    have above : modeDigits 1 os = v / 10 % 10 ^ os.length :=
      ih fun k h => (dig_succ v k).symm.trans (modes (k + 1) (Nat.succ_lt_succ h))
    rw [modeDigits_cons, above, ← units, List.length_cons, pow_succ', Nat.mod_mul]

/-- `N` operands have `N` mode digits. -/
theorem modeDigits_lt (os : List Operand) : modeDigits 1 os < 10 ^ os.length := by
  rw [modeDigits_eq_mod fun _ => dig_modeDigits]
  exact Nat.mod_lt _ (by positivity)

/-! ### The canonical instruction word -/

/-- The opcode field has two digits (30_encoding R51). -/
theorem Opcode.number_lt (op : Opcode) : op.number < 100 := by cases op <;> decide

/-- An instruction has the operands its opcode counts. -/
@[simp] theorem Instr.operands_length (i : Instr) : i.operands.length = i.opcode.operandCount := by cases i <;> rfl

/-- The canonical instruction word is the opcode field with the mode digits above it. -/
theorem encodeWord_eq (i : Instr) :
    encodeWord i = ((i.opcode.number + 100 * modeDigits 1 i.operands : Nat) : Int) := by
  rw [← modeDigits_eq_mul]
  rfl

/-- An instruction's encoding has the length of its opcode (30_encoding R59). -/
theorem encode_length (i : Instr) : (encode i).length = i.opcode.length := by
  simp [encode, Opcode.length, Nat.add_comm]

/-- The mode of operand `k`, and positional where there is no such operand, as the decoder has it. -/
def Instr.modeAt (i : Instr) (k : Nat) : Mode := (i.operands[k]?.map Operand.mode).getD .positional

/-- What the decoder should read from the canonical instruction word of `i`. -/
def Instr.decoded (i : Instr) : Decoded := ⟨i.opcode, i.modeAt 0, i.modeAt 1, i.modeAt 2⟩

/-- The canonical instruction word holds the mode of every operand. -/
theorem modeOf_encodeWord (i : Instr) (k : Nat) : modeOf (encodeWord i).toNat i.opcode k = .ok (i.modeAt k) := by
  have opcode := i.opcode.number_lt
  have high : (i.opcode.number + 100 * modeDigits 1 i.operands) / 100 = modeDigits 1 i.operands := by omega
  rw [modeOf_ok, encodeWord_eq, Int.toNat_natCast, dig_two_add, high]
  rcases Nat.lt_or_ge k i.opcode.operandCount with has | lacks
  · have inside : k < i.operands.length := by simpa using has
    exact .inl ⟨has, by simp [dig_modeDigits inside, Instr.modeAt, List.getElem?_eq_getElem inside]⟩
  · exact .inr ⟨lacks, by simp [Instr.modeAt, lacks]⟩

/-- The decoder reads the opcode and the modes back from the canonical instruction word. -/
theorem decodeWord_encodeWord (i : Instr) : decodeWord (encodeWord i) = .ok i.decoded := by
  have opcode := i.opcode.number_lt
  have field : (encodeWord i).toNat % 100 = i.opcode.number := by rw [encodeWord_eq]; omega
  exact decodeWord_ok.mpr ⟨Int.natCast_nonneg _, field, modeOf_encodeWord i 0, modeOf_encodeWord i 1,
    modeOf_encodeWord i 2⟩

/-- Settles O2: the canonical instruction word decodes to the opcode and the modes, and the operand words stand behind
it in operand order. -/
theorem decodeOfEncode : Obligations.DecodeOfEncode := by
  intro i rest
  refine decode_ok.mpr ⟨i.decoded, decodeWord_encodeWord i, ?_⟩
  cases i with
  | add | mul | input | output | jnz | jz | lt | eq | arb | hlt => rfl

/-! ### What a word that decodes encodes to -/

/-- The instruction a decoded word makes has its opcode. -/
@[simp] theorem Decoded.instr_opcode (d : Decoded) (o0 o1 o2 : Int) : (d.instr o0 o1 o2).opcode = d.op := by
  obtain ⟨op, m0, m1, m2⟩ := d
  cases op <;> rfl

/-- The instruction a decoded word makes has as many of the three operands as its opcode counts. -/
theorem Decoded.instr_operands (d : Decoded) (o0 o1 o2 : Int) :
    (d.instr o0 o1 o2).operands =
      [(⟨d.m0, o0⟩ : Operand), ⟨d.m1, o1⟩, ⟨d.m2, o2⟩].take d.op.operandCount := by
  obtain ⟨op, m0, m1, m2⟩ := d
  cases op <;> rfl

/-- An operand the opcode has was given the mode its digit names. -/
theorem dig_of_modeOf_ok {v k : Nat} {op : Opcode} {m : Mode} (has : k < op.operandCount) (h : modeOf v op k = .ok m) :
    dig v (2 + k) = m.digit := by
  obtain ⟨-, digit⟩ | ⟨lacks, -⟩ := modeOf_ok.mp h
  · exact digit
  · exact absurd has (Nat.not_lt.mpr lacks)

/-- The instruction of a word that decodes has the word's mode digits. -/
theorem Decoded.instr_mode_digits {w : Int} {d : Decoded} (h : decodeWord w = .ok d) (o0 o1 o2 : Int) (k : Nat)
    (inside : k < (d.instr o0 o1 o2).operands.length) :
    dig (w.toNat / 100) k = (d.instr o0 o1 o2).operands[k].mode.digit := by
  obtain ⟨-, -, h0, h1, h2⟩ := decodeWord_ok.mp h
  have has : k < d.op.operandCount := by simpa using inside
  simp only [Decoded.instr_operands, List.getElem_take, ← dig_two_add]
  match k with
  | 0 => exact dig_of_modeOf_ok has h0
  | 1 => exact dig_of_modeOf_ok has h1
  | 2 => exact dig_of_modeOf_ok has h2
  | k + 3 => simp [Decoded.instr_operands] at inside

/-- The canonical instruction word of what a word decodes to is the word without the digits that are ignored. -/
theorem encodeWord_instr {w : Int} {d : Decoded} (h : decodeWord w = .ok d) (o0 o1 o2 : Int) :
    encodeWord (d.instr o0 o1 o2) = w % 10 ^ (2 + d.op.operandCount) := by
  obtain ⟨nonneg, field, -⟩ := decodeWord_ok.mp h
  have digits := modeDigits_eq_mod (Decoded.instr_mode_digits h o0 o1 o2)
  rw [Instr.operands_length, Decoded.instr_opcode] at digits
  obtain ⟨v, rfl⟩ := Int.eq_ofNat_of_zero_le nonneg
  have whole : v % 10 ^ (2 + d.op.operandCount) = v % 100 + 100 * (v / 100 % 10 ^ d.op.operandCount) := by
    rw [pow_add, Nat.mod_mul]
    rfl
  rw [encodeWord_eq, Decoded.instr_opcode, digits, ← field, Int.toNat_natCast, ← whole]
  push_cast
  rfl

/-- Settles O3: the word by `encodeWord_instr`, the operand words as `Decoded.instr` placed them. -/
theorem encodeOfDecode : Obligations.EncodeOfDecode := by
  intro w o0 o1 o2 i h
  obtain ⟨d, hd, rfl⟩ := decode_ok.mp h
  change encodeWord (d.instr o0 o1 o2) :: (d.instr o0 o1 o2).operands.map Operand.word = _
  rw [encodeWord_instr hd, Instr.operands_length, Decoded.instr_opcode, Decoded.instr_operands, List.map_take]
  rfl

/-! ### The digits that are ignored -/

/-- The decoder sees no more of a word than its opcode field and the mode digits of that opcode's operands. -/
theorem decodeWord_congr {v w : Nat} {op : Opcode} (hop : Opcode.ofNumber? (w % 100) = some op)
    (field : v % 100 = w % 100) (modes : ∀ k < op.operandCount, dig v (2 + k) = dig w (2 + k)) :
    decodeWord (v : Int) = decodeWord (w : Int) := by
  have same : ∀ k, modeOf v op k = modeOf w op k := fun k => by
    unfold modeOf
    split_ifs with has
    · rw [modes k has]
    · rfl
  simp [decodeWord, field, hop, same, Int.not_lt.mpr (Int.natCast_nonneg _)]

/-- Settles O4: what is added leaves the opcode field and the operands' digits; and a canonical word has two digits for
the opcode and one for each operand. -/
theorem highDigitsIgnored : Obligations.HighDigitsIgnored := by
  refine ⟨fun w k op hop => ?_, fun i => ?_⟩
  · refine decodeWord_congr hop ?_ fun j has => dig_add_pow_mul (by omega) w k
    rw [pow_add, mul_assoc]
    exact Nat.add_mul_mod_self_left w 100 _
  · have opcode := i.opcode.number_lt
    have digits := modeDigits_lt i.operands
    have word : i.opcode.number + 100 * modeDigits 1 i.operands < 10 ^ (2 + i.operands.length) := by
      rw [pow_add]
      omega
    rw [encodeWord_eq]
    exact_mod_cast word

/-! ### The opcode field -/

/-- The opcode fields that name no opcode. -/
theorem Opcode.ofNumber?_eq_none {n : Nat} : Opcode.ofNumber? n = none ↔ n ∉ [1, 2, 3, 4, 5, 6, 7, 8, 9, 99] := by
  constructor
  · intro h mem
    have named : ∀ m ∈ [1, 2, 3, 4, 5, 6, 7, 8, 9, 99], Opcode.ofNumber? m ≠ none := by decide
    exact named n mem h
  · intro h
    cases hop : Opcode.ofNumber? n with
    | none => rfl
    | some op =>
      have listed : op.number ∈ [1, 2, 3, 4, 5, 6, 7, 8, 9, 99] := by cases op <;> decide
      rw [Opcode.ofNumber?_eq_some.mp hop] at h
      exact absurd listed h

/-- A mode digit is never refused as UnknownOpcode. -/
theorem modeOf_error_ne_unknownOpcode {v k : Nat} {op : Opcode} {e : Illegal} (h : modeOf v op k = .error e) :
    e ≠ .unknownOpcode := by
  obtain ⟨-, -, rfl⟩ := modeOf_error.mp h
  nofun

/-- A word is UnknownOpcode by its sign or its opcode field alone: a mode digit gives another error. -/
theorem decodeWord_unknownOpcode {w : Int} :
    decodeWord w = .error .unknownOpcode ↔ w < 0 ∨ Opcode.ofNumber? (w.toNat % 100) = none := by
  unfold decodeWord
  split_ifs with neg
  · simp [neg]
  · cases hop : Opcode.ofNumber? (w.toNat % 100) with
    | none => simp
    | some op =>
      simp only [neg, false_or, reduceCtorEq, iff_false]
      cases h0 : modeOf w.toNat op 0 with
      | error e => simpa using modeOf_error_ne_unknownOpcode h0
      | ok m0 =>
        cases h1 : modeOf w.toNat op 1 with
        | error e => simpa using modeOf_error_ne_unknownOpcode h1
        | ok m1 =>
          cases h2 : modeOf w.toNat op 2 with
          | error e => simpa using modeOf_error_ne_unknownOpcode h2
          | ok m2 => simp

/-- Settles O5: on a word that is not negative, the remainder by 100 is that of a natural number. -/
theorem unknownOpcodeExactly : Obligations.UnknownOpcodeExactly := by
  intro w
  rw [decodeWord_unknownOpcode, Opcode.ofNumber?_eq_none]
  refine or_congr_right' fun nonneg => not_congr ?_
  obtain ⟨v, rfl⟩ := Int.eq_ofNat_of_zero_le (Int.not_lt.mp nonneg)
  simp only [Int.toNat_natCast, List.mem_cons, List.not_mem_nil]
  norm_cast

/-- The two low digits of a word that decodes are the number of its instruction's opcode. -/
theorem opcode_field_of_decode {w o0 o1 o2 : Int} {i : Instr} (h : decode [w, o0, o1, o2] = .ok i) :
    w % 100 = i.opcode.number := by
  obtain ⟨d, hd, rfl⟩ := decode_ok.mp h
  obtain ⟨nonneg, field, -⟩ := (decodeWord_ok (w := w)).mp hd
  rw [Decoded.instr_opcode]
  omega

/-- Settles O6: the opcode field gives the opcode, and the opcode the length. -/
theorem lengthByOpcodeField : Obligations.LengthByOpcodeField := by
  intro w o0 o1 o2 i h
  rw [opcode_field_of_decode h, encode_length]
  cases i.opcode with
  | add | mul | input | output | jnz | jz | lt | eq | arb | hlt => decide

end Sys2Proof

/-!
PROOFS of the statements about the operands (spec 40_operands): operand resolution mode by mode, and what becomes of an
instruction whose write operand has no address.
-/
namespace Sys2Proof.Machine

/-! ### Operand resolution, mode by mode -/

section
variable (i : Nat) (w v : Int) (s : State)

/-- An immediate operand is its own value (R71). -/
@[simp] theorem readOperand_immediate : readOperand i ⟨.immediate, w⟩ s = .ok w := rfl

/-- A positional operand is read at its operand word (R71). -/
@[simp] theorem readOperand_positional : readOperand i ⟨.positional, w⟩ s = memRead w (.read i) s := rfl

/-- A relative operand is read at its operand word plus `rb` (R71). -/
@[simp] theorem readOperand_relative : readOperand i ⟨.relative, w⟩ s = memRead (w + s.rb) (.read i) s := rfl

/-- Nothing is written through an immediate operand (R73). -/
@[simp] theorem writeOperand_immediate : writeOperand i ⟨.immediate, w⟩ v s = .error (.invalidWriteTarget i) := rfl

/-- A positional operand is written at its operand word (R73). -/
@[simp] theorem writeOperand_positional : writeOperand i ⟨.positional, w⟩ v s = memWrite w v (.write i) s := rfl

/-- A relative operand is written at its operand word plus `rb` (R73). -/
@[simp] theorem writeOperand_relative :
    writeOperand i ⟨.relative, w⟩ v s = memWrite (w + s.rb) v (.write i) s := rfl

end

/-- Settles O10: the mode gives the address, and MemRead decides by its sign. -/
theorem readOperandByMode : Obligations.ReadOperandByMode := by
  intro i w s
  rw [readOperand_immediate, readOperand_positional, readOperand_relative]
  exact ⟨rfl, fun nonneg => memRead_ok.mpr ⟨nonneg, rfl⟩, fun neg => memRead_error.mpr ⟨neg, rfl⟩,
    fun nonneg => memRead_ok.mpr ⟨nonneg, rfl⟩, fun neg => memRead_error.mpr ⟨neg, rfl⟩⟩

/-- Settles O11: the mode gives the address, and MemWrite decides by its sign. -/
theorem writeOperandByMode : Obligations.WriteOperandByMode := by
  intro i w v s
  rw [writeOperand_immediate, writeOperand_positional, writeOperand_relative]
  exact ⟨rfl, fun nonneg => memWrite_ok.mpr ⟨nonneg, rfl⟩, fun neg => memWrite_error.mpr ⟨neg, rfl⟩,
    fun nonneg => memWrite_ok.mpr ⟨nonneg, rfl⟩, fun neg => memWrite_error.mpr ⟨neg, rfl⟩⟩

/-! ### An immediate write operand -/

/-- The operands without an effective address are the immediate ones (R72). -/
theorem effectiveAddress_eq_none {o : Operand} {s : State} : effectiveAddress o s = none ↔ o.mode = .immediate := by
  obtain ⟨mode, w⟩ := o
  cases mode <;> simp [effectiveAddress]

/-- A rule that answers has stored through its write operand, so that operand has an address that is not negative. -/
theorem ruleOf_ok_effectiveAddress {i : Instr} {k : Nat} {d : Operand} {s u : State}
    (target : i.writeOperand? = some (k, d)) (h : ruleOf i s = .ok u) : ∃ a, effectiveAddress d s = some a ∧ 0 ≤ a := by
  cases i with
  | add | mul | lt | eq =>
    cases target
    obtain ⟨_, _, a, -, -, addr, nonneg, -⟩ := computeToMemory_ok h
    exact ⟨a, addr, nonneg⟩
  | input =>
    cases target
    obtain ⟨_, _, a, -, addr, nonneg, -⟩ := takeInput_ok h
    exact ⟨a, addr, nonneg⟩
  | output | jnz | jz | arb | hlt => cases target

/-- The rule of an instruction with an immediate write operand ends in a fatal error. -/
theorem ruleOf_error_of_immediate_target {i : Instr} {k : Nat} {d : Operand} (s : State)
    (target : i.writeOperand? = some (k, d)) (imm : d.mode = .immediate) : ∃ e, ruleOf i s = .error e := by
  cases h : ruleOf i s with
  | error e => exact ⟨e, rfl⟩
  | ok u =>
    obtain ⟨a, addr, -⟩ := ruleOf_ok_effectiveAddress target h
    rw [effectiveAddress_eq_none.mpr imm] at addr
    cases addr

/-- Settles O29: the rule fails, and the fatal error that the step takes changes neither memory, queue nor `pc`. -/
theorem immediateTargetNeverWritten : Obligations.ImmediateTargetNeverWritten := by
  intro i k d s target imm
  have not_halt : i ≠ .hlt := by
    rintro rfl
    cases target
  obtain ⟨e, fails⟩ := ruleOf_error_of_immediate_target s.clearFlags target imm
  refine ⟨raiseFatal e s, ?_, rfl, rfl, rfl, rfl⟩
  rw [exec_eq_finishStep not_halt, fails]
  rfl

end Sys2Proof.Machine

/-!
PROOFS of the statements about arithmetic (spec 41_arithmetic). Every three-operand instruction is `computeToMemory`
between the clearing of the flags and the end of the step, so what is said here of that shape holds of all four.
-/
namespace Sys2Proof.Machine

/-! ### Operands with a negative address -/

/-- A read at a negative effective address reports that address (R71). -/
theorem readOperand_of_neg {o : Operand} {s : State} {a : Int} (i : Nat) (addr : effectiveAddress o s = some a)
    (neg : a < 0) : readOperand i o s = .error (.invalidAddress a (.read i)) := by
  unfold readOperand
  rw [addr]
  exact memRead_error.mpr ⟨neg, rfl⟩

/-- A write at a negative effective address reports that address (R73). -/
theorem writeOperand_of_neg {o : Operand} {s : State} {a : Int} (i : Nat) (v : Int)
    (addr : effectiveAddress o s = some a) (neg : a < 0) :
    writeOperand i o v s = .error (.invalidAddress a (.write i)) := by
  unfold writeOperand
  rw [addr]
  exact memWrite_error.mpr ⟨neg, rfl⟩

/-- A write without an effective address is refused as a target (R73, R74). -/
theorem writeOperand_of_immediate {o : Operand} (i : Nat) (v : Int) (s : State) (imm : o.mode = .immediate) :
    writeOperand i o v s = .error (.invalidWriteTarget i) := by
  unfold writeOperand
  rw [effectiveAddress_eq_none.mpr imm]

/-! ### The end of a faulting step -/

/-- Where a word was fetched, a fatal error is taken as `faultedBy` says: the opcode field it records is that of the
word at `pc`. -/
theorem raiseFatal_eq_faultedBy {s : State} (e : FatalError) (fetched : 0 ≤ s.pc) :
    raiseFatal e s = faultedBy e (some (wordAt s)) s := by
  have word : instructionWord s = some (wordAt s) := if_neg (Int.not_lt.mpr fetched)
  have field : opcodeField (some (wordAt s)) =
      if wordAt s < 0 then none else some (wordAt s % 100).toNat := by
    unfold opcodeField
    refine ite_congr rfl (fun _ => rfl) fun nonneg => ?_
    rw [Int.toNat_emod (Int.not_lt.mp nonneg) (by decide)]
    rfl
  rw [raiseFatal_eq, faultRecord, word, field]
  rfl

/-- A rule that fails, in a step that fetched its word, ends in that error alone. -/
theorem finishStep_error {op : Opcode} {s : State} (e : FatalError) (fetched : 0 ≤ s.pc) :
    finishStep op s (.error e) = .next (faultedBy e (some (wordAt s)) s) :=
  congrArg Host.Outcome.next (raiseFatal_eq_faultedBy e fetched)

/-! ### The three-operand shape -/

section
variable {f : Int → Int → Int} {s0 s1 d : Operand} {s : State}

/-- The first read is the first to fail (R75). -/
theorem computeToMemory_of_first_error {e : FatalError} (fails : readOperand 0 s0 s = .error e) :
    computeToMemory f s0 s1 d s = .error e := by
  unfold computeToMemory
  rw [fails]

/-- The second read fails before anything is written (R75). -/
theorem computeToMemory_of_second_error {e : FatalError} (read0 : Readable s0 s)
    (fails : readOperand 1 s1 s = .error e) : computeToMemory f s0 s1 d s = .error e := by
  unfold computeToMemory
  rw [readOperand_of_readable 0 read0, fails]

/-- With both operands readable, what is left is the write of the function of their values (R75). -/
theorem computeToMemory_of_readable (read0 : Readable s0 s) (read1 : Readable s1 s) :
    computeToMemory f s0 s1 d s = writeOperand 2 d (f (valueOf s0 s) (valueOf s1 s)) s := by
  unfold computeToMemory
  rw [readOperand_of_readable 0 read0, readOperand_of_readable 1 read1]

end

/-- The end of a step whose rule stored one word: the flags are false, so `pc` advances and there is no pause. -/
theorem finishStep_setMem (op : Opcode) (s : State) (m : Memory) :
    finishStep op s (.ok (s.clearFlags.setMem m)) =
      .next { s with mem := m, pc := s.pc + (op.length : Nat), jflag := false, oflag := false } := by
  rw [finishStep, advance_eq, pauseCheck_of_no_output rfl]
  rfl

section
variable {mk : Operand → Operand → Operand → Instr} {f : Int → Int → Int} {op : Opcode}
  (shape : ∀ s0 s1 d s, exec (mk s0 s1 d) s = finishStep op s (computeToMemory f s0 s1 d s.clearFlags))
include shape

/-- An instruction of the three-operand shape stores `f` of the values read and advances by its length. -/
theorem threeOperandResult_of_shape (len : op.length = 4) : ThreeOperandResult mk f := by
  intro s0 s1 d s n read0 read1 addr
  have stored : computeToMemory f s0 s1 d s.clearFlags =
      .ok (s.clearFlags.setMem (Memory.write s.mem n (f (valueOf s0 s) (valueOf s1 s)))) := by
    rw [computeToMemory_of_readable (s := s.clearFlags) read0 read1]
    exact writeOperand_ok.mpr ⟨n, addr, Int.natCast_nonneg n, rfl⟩
  rw [shape, stored, finishStep_setMem, len]
  rfl

/-- An instruction of the three-operand shape takes its exceptions in the order of R75: the reads, then the write. -/
theorem threeOperandFaults_of_shape : ThreeOperandFaults mk := by
  intro s0 s1 d s fetched
  have fault {e : FatalError} (fails : computeToMemory f s0 s1 d s.clearFlags = .error e) :
      exec (mk s0 s1 d) s = .next (faultedBy e (some (wordAt s)) s) := by
    rw [shape, fails, finishStep_error e fetched]
  refine ⟨fun a addr neg => fault ?_, fun a read0 addr neg => fault ?_, fun read0 read1 imm => fault ?_,
    fun a read0 read1 addr neg => fault ?_⟩
  · exact computeToMemory_of_first_error (readOperand_of_neg 0 addr neg)
  · exact computeToMemory_of_second_error read0 (readOperand_of_neg 1 addr neg)
  · rw [computeToMemory_of_readable (s := s.clearFlags) read0 read1]
    exact writeOperand_of_immediate 2 _ _ imm
  · rw [computeToMemory_of_readable (s := s.clearFlags) read0 read1]
    exact writeOperand_of_neg 2 _ addr neg

end

/-- Settles O12: Add is the three-operand shape with the sum of ℤ. -/
theorem addStoresExactSum : Obligations.AddStoresExactSum :=
  have shape (s0 s1 d : Operand) (s : State) :
      exec (.add s0 s1 d) s = finishStep .add s (computeToMemory (fun a b => a + b) s0 s1 d s.clearFlags) := rfl
  ⟨threeOperandResult_of_shape shape rfl, threeOperandFaults_of_shape shape⟩

/-- Settles O13: Multiply is the three-operand shape with the product of ℤ. -/
theorem mulStoresExactProduct : Obligations.MulStoresExactProduct :=
  have shape (s0 s1 d : Operand) (s : State) :
      exec (.mul s0 s1 d) s = finishStep .mul s (computeToMemory (fun a b => a * b) s0 s1 d s.clearFlags) := rfl
  ⟨threeOperandResult_of_shape shape rfl, threeOperandFaults_of_shape shape⟩

/-! ### The frame of the three-operand instructions -/

/-- Add, Multiply, Less-Than and Equals all have the three-operand shape, and length 4. -/
theorem exec_threeOperand {i : Instr} {s0 s1 d : Operand}
    (hi : i ∈ [.add s0 s1 d, .mul s0 s1 d, .lt s0 s1 d, .eq s0 s1 d]) (s : State) :
    ∃ op f, op.length = 4 ∧ exec i s = finishStep op s (computeToMemory f s0 s1 d s.clearFlags) := by
  simp only [List.mem_cons, List.not_mem_nil, or_false] at hi
  obtain rfl | rfl | rfl | rfl := hi <;> exact ⟨_, _, rfl, rfl⟩

/-- Settles O22: the step ends in one store at the destination's address, or in a fatal error that writes nothing. -/
theorem threeOperandFrame : Obligations.ThreeOperandFrame := by
  intro s0 s1 d i s t hi h
  obtain ⟨op, f, len, shape⟩ := exec_threeOperand hi s
  rw [shape] at h
  obtain ⟨a, v, -, -, addr, nonneg, rfl⟩ | ⟨e, -, rfl⟩ := finishStep_compute len h
  · refine ⟨rfl, rfl, rfl, .inl ⟨rfl, rfl, rfl, rfl⟩, nofun, fun b elsewhere => ?_⟩
    have other_cell : b ≠ a.toNat := by
      rintro rfl
      exact elsewhere (by rw [addr, Int.toNat_of_nonneg nonneg])
    exact Memory.read_write_ne s.mem v other_cell
  · exact ⟨rfl, rfl, rfl, .inr ⟨rfl, rfl, rfl, rfl, rfl, rfl, rfl, rfl, rfl⟩, fun _ => rfl, fun _ _ => rfl⟩

end Sys2Proof.Machine

/-!
PROOFS of the statements about Input and Output (spec 42_io). First what the rule of each answers, case by case; then
the whole instruction, with the end of the step around its rule; then the two frames, which follow from `exec_next`.
-/
namespace Sys2Proof.Machine

/-! ### Input -/

/-- Input is its rule between the clearing of the flags and the end of the step. -/
theorem exec_input (d : Operand) (s : State) :
    exec (.input d) s = finishStep .input s (takeInput d s.clearFlags) := rfl

section
variable {d : Operand} {s : State} {v : Int} {rest : Words}

/-- The empty queue is the first exception of Input (R85). -/
theorem takeInput_of_empty (empty : s.inq = []) : takeInput d s = .error .blockingInput := by
  simp only [takeInput, empty]

/-- With a value in the queue, Input fails as its write does (R85). -/
theorem takeInput_of_write_error {e : FatalError} (head : s.inq = v :: rest)
    (fails : writeOperand 0 d v s = .error e) : takeInput d s = .error e := by
  simp only [takeInput, head, fails]

/-- With a value in the queue and an address to store it at, Input moves the value there (R85). -/
theorem takeInput_of_target {n : Nat} (head : s.inq = v :: rest) (addr : effectiveAddress d s = some (n : Int)) :
    takeInput d s = .ok ((s.setMem (Memory.write s.mem n v)).setInq rest) := by
  have stored : writeOperand 0 d v s = .ok (s.setMem (Memory.write s.mem n v)) :=
    writeOperand_ok.mpr ⟨n, addr, Int.natCast_nonneg n, rfl⟩
  simp only [takeInput, head, stored]

/-- A failing rule of Input is the whole outcome of the instruction, once its word was fetched. -/
theorem exec_input_of_error {e : FatalError} (fetched : 0 ≤ s.pc) (fails : takeInput d s.clearFlags = .error e) :
    exec (.input d) s = .next (faultedBy e (some (wordAt s)) s) := by
  rw [exec_input, fails, finishStep_error e fetched]

/-- A write that fails whatever the value makes Input fail, unless the queue is empty. -/
theorem exec_input_of_write_error {e : FatalError} (fetched : 0 ≤ s.pc) (fed : s.inq ≠ [])
    (fails : ∀ v, writeOperand 0 d v s.clearFlags = .error e) :
    exec (.input d) s = .next (faultedBy e (some (wordAt s)) s) := by
  obtain ⟨v, rest, head⟩ := List.exists_cons_of_ne_nil fed
  exact exec_input_of_error fetched (takeInput_of_write_error head (fails v))

end

/-- Settles O16: the rule of Input tests the queue, then its write decides; a failing rule leaves the queue alone. -/
theorem inputStoresQueueHead : Obligations.InputStoresQueueHead := by
  intro d s
  refine ⟨fun v rest n head addr => ?_, fun fetched empty => ?_, fun fetched fed imm => ?_,
    fun a fetched fed addr neg => ?_⟩
  · rw [exec_input, takeInput_of_target (s := s.clearFlags) head addr, finishStep, advance_eq,
      pauseCheck_of_no_output rfl]
    rfl
  · exact exec_input_of_error fetched (takeInput_of_empty empty)
  · exact exec_input_of_write_error fetched fed fun v => writeOperand_of_immediate 0 v _ imm
  · exact exec_input_of_write_error fetched fed fun v => writeOperand_of_neg 0 v addr neg

/-! ### Output -/

/-- Output is its rule between the clearing of the flags and the end of the step. -/
theorem exec_output (o : Operand) (s : State) :
    exec (.output o) s = finishStep .output s (putOutput o s.clearFlags) := rfl

section
variable {o : Operand} {s : State}

/-- A readable operand's value is appended, and the output flag is set (R86). -/
theorem putOutput_of_readable (readable : Readable o s) :
    putOutput o s = .ok (s.setOutq (s.outq ++ [valueOf o s])).setOflag := by
  simp only [putOutput, readOperand_of_readable 0 readable]

/-- Output fails as its read does, and then sets no flag (R86). -/
theorem putOutput_of_read_error {e : FatalError} (fails : readOperand 0 o s = .error e) :
    putOutput o s = .error e := by
  simp only [putOutput, fails]

/-- With a readable operand, Output appends and advances, and the pause check is all that is left of the step (R86,
46_step_cycle R108). -/
theorem exec_output_of_readable (readable : Readable o s) :
    exec (.output o) s = .next (pauseCheck
      { s with outq := s.outq ++ [valueOf o s], pc := s.pc + 2, jflag := false, oflag := true }) := by
  rw [exec_output, putOutput_of_readable (s := s.clearFlags) readable, finishStep, advance_eq]
  rfl

end

/-- Settles O17: once the value is appended, the pause request alone decides whether the invocation ends. -/
theorem outputAppendsThenPauses : Obligations.OutputAppendsThenPauses := by
  intro o s
  refine ⟨fun readable goOn => ?_, fun readable pause => ?_, fun a fetched addr neg => ?_⟩
  · rw [exec_output_of_readable readable, pauseCheck_eq, if_neg fun both => goOn both.1]
  · rw [exec_output_of_readable readable, pauseCheck_eq, if_pos ⟨pause, rfl⟩]
  · rw [exec_output, putOutput_of_read_error (s := s.clearFlags) (readOperand_of_neg 0 addr neg),
      finishStep_error _ fetched]

/-! ### The frames of Input and Output -/

/-- A store at an operand's effective address leaves every cell at another address as it was (20_memory R33). -/
theorem Memory.read_write_elsewhere {o : Operand} {s : State} {a : Int} {b : Nat} (m : Memory) (v : Int)
    (addr : effectiveAddress o s = some a) (nonneg : 0 ≤ a) (elsewhere : effectiveAddress o s ≠ some (b : Int)) :
    Memory.read (Memory.write m a.toNat v) b = Memory.read m b := by
  have other_cell : b ≠ a.toNat := by
    rintro rfl
    exact elsewhere (by rw [addr, Int.toNat_of_nonneg nonneg])
  exact Memory.read_write_ne m v other_cell

/-- A fatal error leaves the registers as `CompletedOrFaulted` says of a faulting step (46_step_cycle R114). -/
theorem completedOrFaulted_raiseFatal (e : FatalError) (s : State) : CompletedOrFaulted s (raiseFatal e s) :=
  .inr ⟨rfl, rfl, rfl, rfl, rfl, rfl, rfl, rfl, rfl⟩

/-- Settles O23: Input completes with one store and one value consumed, or takes a fatal error that writes nothing. -/
theorem inputFrame : Obligations.InputFrame := by
  intro d s t h
  obtain ⟨e, -, rfl⟩ | done := exec_next h
  · exact ⟨rfl, rfl, .inl rfl, completedOrFaulted_raiseFatal e s, fun _ => rfl, fun _ _ => rfl⟩
  · cases done with
    | input _ v rest a head addr nonneg =>
      exact ⟨rfl, rfl, .inr ⟨v, head⟩, .inl ⟨rfl, rfl, rfl, rfl⟩, nofun,
        fun _ elsewhere => Memory.read_write_elsewhere s.mem v addr nonneg elsewhere⟩
    | store _ _ _ _ _ _ other | jump _ _ _ other | pass _ _ _ other => simp at other

/-- Settles O24: Output completes, with or without a pause, or takes a fatal error that appends nothing. -/
theorem outputFrame : Obligations.OutputFrame := by
  intro o s t h
  obtain ⟨e, -, rfl⟩ | done := exec_next h
  · exact ⟨rfl, rfl, rfl, .inr ⟨rfl, rfl, rfl, rfl, rfl, rfl⟩⟩
  · cases done with
    | output => exact ⟨rfl, rfl, rfl, .inl ⟨rfl, rfl, rfl, rfl, .inl ⟨rfl, rfl⟩⟩⟩
    | pause => exact ⟨rfl, rfl, rfl, .inl ⟨rfl, rfl, rfl, rfl, .inr ⟨rfl, rfl⟩⟩⟩
    | store _ _ _ _ _ _ other | jump _ _ _ other | pass _ _ _ other => simp at other

end Sys2Proof.Machine

/-!
PROOFS of the statements about the jumps (spec 43_jumps). Both jumps are `jumpWhen` between the clearing of the flags and
the end of the step, so what is said of that shape holds of both; the frame, shared with Adjust-Relative-Base, follows
from `exec_next`.
-/
namespace Sys2Proof.Machine

/-! ### The shape of the jumps -/

section
variable {taken : Int → Bool} {c g : Operand} {s : State}

/-- The read of the condition is the first to fail (R90, R91). -/
theorem jumpWhen_of_condition_error {e : FatalError} (fails : readOperand 0 c s = .error e) :
    jumpWhen taken c g s = .error e := by
  simp only [jumpWhen, fails]

/-- When the jump is taken, the read of the target may fail (R90, R91). -/
theorem jumpWhen_of_target_error {e : FatalError} (readable : Readable c s) (goes : taken (valueOf c s) = true)
    (fails : readOperand 1 g s = .error e) : jumpWhen taken c g s = .error e := by
  simp only [jumpWhen, readOperand_of_readable 0 readable, goes, if_true, fails]

/-- A taken jump writes the value of its target to `pc` and sets its flag (R90, R91). -/
theorem jumpWhen_of_taken (readable : Readable c s) (goes : taken (valueOf c s) = true) (target : Readable g s) :
    jumpWhen taken c g s = .ok (s.setPc (valueOf g s)).setJflag := by
  simp only [jumpWhen, readOperand_of_readable 0 readable, goes, if_true, readOperand_of_readable 1 target]

/-- A jump that is not taken changes nothing, whatever its target (40_operands R75 (c)). -/
theorem jumpWhen_of_not_taken (readable : Readable c s) (stays : taken (valueOf c s) = false) :
    jumpWhen taken c g s = .ok s := by
  simp [jumpWhen, readOperand_of_readable 0 readable, stays]

end

/-- The end of a step whose rule took a jump: `pc` is not advanced, and there is no pause. -/
theorem finishStep_jumped (op : Opcode) (s : State) (v : Int) :
    finishStep op s (.ok (s.clearFlags.setPc v).setJflag) =
      .next { s with pc := v, jflag := true, oflag := false } := by
  rw [finishStep, advance_eq, pauseCheck_of_no_output rfl]
  rfl

/-- The end of a step whose rule changed nothing: `pc` advances, and there is no pause. -/
theorem finishStep_unchanged (op : Opcode) (s : State) :
    finishStep op s (.ok s.clearFlags) =
      .next { s with pc := s.pc + (op.length : Nat), jflag := false, oflag := false } := by
  rw [finishStep, advance_eq, pauseCheck_of_no_output rfl]
  rfl

/-- What R90 and R91 say alike of a jump `mk`, with `taken` for the test of its condition: where it goes, when it
advances by 3 instead, and its exceptions in order of priority. -/
def JumpRedirects (mk : Operand → Operand → Instr) (taken : Int → Bool) : Prop :=
  ∀ (c g : Operand) (s : State),
    (Readable c s → taken (valueOf c s) = true → Readable g s →
      exec (mk c g) s = .next { s with pc := valueOf g s, jflag := true, oflag := false }) ∧
    (Readable c s → taken (valueOf c s) = false →
      exec (mk c g) s = .next { s with pc := s.pc + 3, jflag := false, oflag := false }) ∧
    (∀ a, 0 ≤ s.pc → effectiveAddress c s = some a → a < 0 →
      exec (mk c g) s = .next (faultedBy (.invalidAddress a (.read 0)) (some (wordAt s)) s)) ∧
    (∀ a, 0 ≤ s.pc → Readable c s → taken (valueOf c s) = true → effectiveAddress g s = some a → a < 0 →
      exec (mk c g) s = .next (faultedBy (.invalidAddress a (.read 1)) (some (wordAt s)) s))

/-- An instruction of the shape of the jumps, of length 3, redirects as R90 and R91 say. -/
theorem jumpRedirects_of_shape {mk : Operand → Operand → Instr} {taken : Int → Bool} {op : Opcode}
    (shape : ∀ c g s, exec (mk c g) s = finishStep op s (jumpWhen taken c g s.clearFlags)) (len : op.length = 3) :
    JumpRedirects mk taken := by
  intro c g s
  rw [shape]
  refine ⟨fun readable goes target => ?_, fun readable stays => ?_, fun a fetched addr neg => ?_,
    fun a fetched readable goes addr neg => ?_⟩
  · rw [jumpWhen_of_taken (s := s.clearFlags) readable goes target]
    exact finishStep_jumped op s (valueOf g s)
  · rw [jumpWhen_of_not_taken (s := s.clearFlags) readable stays, finishStep_unchanged, len]
    rfl
  · rw [jumpWhen_of_condition_error (s := s.clearFlags) (readOperand_of_neg 0 addr neg), finishStep_error _ fetched]
  · rw [jumpWhen_of_target_error (s := s.clearFlags) readable goes (readOperand_of_neg 1 addr neg),
      finishStep_error _ fetched]

/-- Jump-If-True is the shape with the test for any non-zero integer (R90). -/
theorem jnz_jumpRedirects : JumpRedirects .jnz fun v => decide (v ≠ 0) :=
  jumpRedirects_of_shape (op := .jnz) (fun _ _ _ => rfl) rfl

/-- Jump-If-False is the shape with the test for 0 (R91). -/
theorem jz_jumpRedirects : JumpRedirects .jz fun v => decide (v = 0) :=
  jumpRedirects_of_shape (op := .jz) (fun _ _ _ => rfl) rfl

/-- Settles O18: the shape of the jumps, with its test read as `valueOf c s ≠ 0`. -/
theorem jumpIfTrueRedirects : Obligations.JumpIfTrueRedirects := by
  intro c t s
  obtain ⟨goesTo, advances, conditionFault, targetFault⟩ := jnz_jumpRedirects c t s
  exact ⟨fun readable nonzero => goesTo readable (decide_eq_true nonzero),
    fun readable zero => advances readable (decide_eq_false (not_not.mpr zero)), conditionFault,
    fun a fetched readable nonzero => targetFault a fetched readable (decide_eq_true nonzero)⟩

/-- Settles O19: the shape of the jumps, with its test read as `valueOf c s = 0`. -/
theorem jumpIfFalseRedirects : Obligations.JumpIfFalseRedirects := by
  intro c t s
  obtain ⟨goesTo, advances, conditionFault, targetFault⟩ := jz_jumpRedirects c t s
  exact ⟨fun readable zero => goesTo readable (decide_eq_true zero),
    fun readable nonzero => advances readable (decide_eq_false nonzero), conditionFault,
    fun a fetched readable zero => targetFault a fetched readable (decide_eq_true zero)⟩

/-! ### The frame of the jumps and Adjust-Relative-Base -/

/-- Settles O25: of the completions that `exec_next` gives, a jump, taken or not, moves `pc` and the flags only, and the
adjustment `rb` besides. -/
theorem jumpAndBaseFrame : Obligations.JumpAndBaseFrame := by
  intro x y i s t hi h
  obtain ⟨e, -, rfl⟩ | done := exec_next h
  · exact ⟨rfl, rfl, rfl, completedOrFaulted_raiseFatal e s, fun _ => rfl⟩
  · cases done with
    | jump | pass => exact ⟨rfl, rfl, rfl, .inl ⟨rfl, rfl, rfl, rfl⟩, fun _ => rfl⟩
    | adjust o =>
      obtain rfl : o = x := by simpa using hi
      exact ⟨rfl, rfl, rfl, .inl ⟨rfl, rfl, rfl, rfl⟩, absurd rfl⟩
    | store _ _ _ _ _ _ other =>
      simp only [List.mem_cons, List.not_mem_nil, or_false] at other
      obtain rfl | rfl | rfl | rfl := other <;> simp at hi
    | input | output | pause | halt => simp at hi

end Sys2Proof.Machine

/-!
PROOFS of the statements about the comparisons (spec 44_compare). Both have the three-operand shape, with the truth word
of a test as the function of the two values; they differ in the test alone.
-/
namespace Sys2Proof.Machine

/-- The word a comparison writes is 1 when its test holds, else 0 (R95, R96). -/
theorem truthWord_decide (p : Prop) [Decidable p] : truthWord (decide p) = if p then 1 else 0 := by
  by_cases holds : p
  · rw [decide_eq_true holds, if_pos holds]
    rfl
  · rw [decide_eq_false holds, if_neg holds]
    rfl

/-- An instruction of the three-operand shape that writes the truth word of a test stores 1 or 0 by that test, and takes
its exceptions in the order of R75. -/
theorem threeOperand_of_test {mk : Operand → Operand → Operand → Instr} {op : Opcode} (test : Int → Int → Prop)
    [DecidableRel test]
    (shape : ∀ s0 s1 d s, exec (mk s0 s1 d) s =
      finishStep op s (computeToMemory (fun a b => truthWord (decide (test a b))) s0 s1 d s.clearFlags))
    (len : op.length = 4) :
    ThreeOperandResult mk (fun a b => if test a b then 1 else 0) ∧ ThreeOperandFaults mk := by
  refine ⟨?_, threeOperandFaults_of_shape shape⟩
  simpa only [truthWord_decide] using threeOperandResult_of_shape shape len

/-- Settles O14: Less-Than has the three-operand shape, and its test is the strict order of ℤ. -/
theorem lessThanStoresTruth : Obligations.LessThanStoresTruth :=
  threeOperand_of_test (op := .lt) (fun a b => a < b) (fun _ _ _ _ => rfl) rfl

/-- Settles O15: Equals has the three-operand shape, and its test is the equality of ℤ. -/
theorem equalsStoresTruth : Obligations.EqualsStoresTruth :=
  threeOperand_of_test (op := .eq) (fun a b => a = b) (fun _ _ _ _ => rfl) rfl

end Sys2Proof.Machine

/-!
PROOF of the statement about Adjust-Relative-Base (spec 45_base_halt R100): what its rule does when the operand's read
succeeds and when it fails.
-/
namespace Sys2Proof.Machine

/-- Adjust-Relative-Base is its rule between the clearing of the flags and the end of the step. -/
theorem exec_arb (o : Operand) (s : State) : exec (.arb o) s = finishStep .arb s (adjustBase o s.clearFlags) := rfl

section
variable {o : Operand} {s : State}

/-- A readable operand's value, read with the old `rb`, is added to `rb` (R100). -/
theorem adjustBase_of_readable (readable : Readable o s) :
    adjustBase o s = .ok (s.setRb (s.rb + valueOf o s)) := by
  simp only [adjustBase, readOperand_of_readable 0 readable]

/-- Adjust-Relative-Base fails as its read does, and then leaves `rb` alone (R100). -/
theorem adjustBase_of_read_error {e : FatalError} (fails : readOperand 0 o s = .error e) :
    adjustBase o s = .error e := by
  simp only [adjustBase, fails]

end

/-- Settles O20: the read decides, and the flags it is made without do not enter the address or the value. -/
theorem adjustBaseAdds : Obligations.AdjustBaseAdds := by
  intro o s
  refine ⟨fun readable => ?_, fun a fetched addr neg => ?_⟩
  · rw [exec_arb, adjustBase_of_readable (s := s.clearFlags) readable, finishStep, advance_eq,
      pauseCheck_of_no_output rfl]
    rfl
  · rw [exec_arb, adjustBase_of_read_error (s := s.clearFlags) (readOperand_of_neg 0 addr neg),
      finishStep_error _ fetched]

end Sys2Proof.Machine

/-!
PROOFS of the statements about the step cycle (spec 46_step_cycle). First one step: what it runs, where `pc` goes and
what a fatal error keeps; then Halt; then the run invocation, by one induction on its steps.
-/
namespace Sys2Proof.Machine

/-! ### One step -/

/-- Settles O30: the cells at `pc` are what the step fetches. -/
theorem stepRunsDecoded : Obligations.StepRunsDecoded :=
  fun _ _ run fetched decoded => step_eq_exec run (fetchInstr_ok.mpr ⟨fetched, decoded⟩)

/-- An instruction that completes advances `pc` by its length and leaves `jflag` false, or is a jump that is taken, or
is Halt (R106, R107). -/
theorem Completes.pc_cases {i : Instr} {s t : State} (done : Completes s i t) :
    (t.jflag = false ∧ t.pc = s.pc + (encode i).length) ∨
      (t.jflag = true ∧ ∃ c g, (i = .jnz c g ∨ i = .jz c g) ∧ Readable g s ∧ t.pc = valueOf g s) ∨ i = .hlt := by
  cases done with
  | store _ s0 s1 d _ _ kind =>
    simp only [List.mem_cons, List.not_mem_nil, or_false] at kind
    obtain rfl | rfl | rfl | rfl := kind <;> exact .inl ⟨rfl, rfl⟩
  | input | output | pause | adjust => exact .inl ⟨rfl, rfl⟩
  | jump _ c g kind _ target => exact .inr (.inl ⟨rfl, c, g, by simpa using kind, target, rfl⟩)
  | pass _ c g kind =>
    simp only [List.mem_cons, List.not_mem_nil, or_false] at kind
    obtain rfl | rfl := kind <;> exact .inl ⟨rfl, rfl⟩
  | halt => exact .inr (.inr rfl)

/-- Settles O28: with no fatal error and no Halt, `pc` has advanced or a jump was taken, and `jflag` tells which. -/
theorem advanceUnlessJump : Obligations.AdvanceUnlessJump := by
  intro i s t h ok ne
  obtain ⟨e, -, rfl⟩ | done := exec_next h
  · exact absurd rfl ok
  · obtain ⟨flag, advanced⟩ | ⟨flag, jumped⟩ | halt := done.pc_cases
    · exact ⟨fun _ => advanced, fun set => by simp [flag] at set⟩
    · exact ⟨fun clear => by simp [flag] at clear, fun _ => jumped⟩
    · exact absurd halt ne

/-- A running step takes a fatal error or completes an instruction. -/
theorem step_next_of_running {s t : State} (run : s.status = .running) (h : step s = .next t) :
    (∃ e, t = raiseFatal e s) ∨ ∃ i, Completes s i t := by
  obtain ⟨i, -, eq⟩ | ⟨e, -, eq⟩ := step_running run <;> rw [eq] at h
  · exact (exec_next h).imp (fun ⟨e, _, fatal⟩ => ⟨e, fatal⟩) fun done => ⟨i, done⟩
  · cases h
    exact .inl ⟨e, rfl⟩

/-- An instruction that completes keeps the status, unless it is Halt or an Output that pauses. -/
theorem Completes.status_cases {i : Instr} {s t : State} (done : Completes s i t) :
    t.status = s.status ∨ t.status = .halted ∨ t.status = .paused := by
  cases done with
  | store | input | output | jump | pass | adjust => exact .inl rfl
  | halt => exact .inr (.inl rfl)
  | pause => exact .inr (.inr rfl)

/-- Settles O34: no completion ends Faulted, so the step took a fatal error, which writes nothing else. -/
theorem faultingStepCommitsNothing : Obligations.FaultingStepCommitsNothing := by
  intro s t run h bad
  obtain ⟨e, rfl⟩ | ⟨i, done⟩ := step_next_of_running run h
  · exact ⟨rfl, rfl⟩
  · have status := done.status_cases
    simp [bad, run] at status

/-! ### Halt -/

/-- Every word whose opcode field is 99 decodes to Halt: it has no operand, so no other digit of it is examined
(30_encoding R55). -/
theorem decodeWord_hlt (k : Nat) :
    decodeWord (99 + 100 * (k : Int)) = .ok ⟨.hlt, .positional, .positional, .positional⟩ :=
  calc decodeWord (99 + 100 * (k : Int)) = decodeWord ((99 + 100 * k : Nat) : Int) := by push_cast; rfl
    _ = decodeWord ((99 : Nat) : Int) := decodeWord_congr (op := .hlt) rfl (Nat.add_mul_mod_self_left 99 100 k) nofun
    _ = .ok ⟨.hlt, .positional, .positional, .positional⟩ := by decide

/-- Settles O21: `exec` of Halt has one case, and the digits above the opcode field 99 are ignored. -/
theorem haltStopsInPlace : Obligations.HaltStopsInPlace :=
  ⟨exec_hlt, fun k _ => decode_ok.mpr ⟨_, decodeWord_hlt k, rfl⟩⟩

/-! ### The run invocation -/

/-- The machine performs steps exactly while Running. -/
theorem performsStep_iff {s : State} : performsStep s = true ↔ s.status = .running := by
  cases h : s.status <;> simp [performsStep, h]

/-- Outside Running the steps are over. -/
theorem runSteps_of_not_running {s : State} (n : Nat) (ne : s.status ≠ .running) : runSteps n s = some s := by
  have stops : ¬performsStep s = true := performsStep_iff.not.mpr ne
  cases n with
  | zero => exact if_neg stops
  | succ n => exact if_neg stops

/-- While Running the steps go on, if one more is allowed, from the state that the next step answers. -/
theorem runSteps_of_running {s t : State} {n : Nat} (run : s.status = .running) :
    runSteps n s = some t ↔ ∃ k u, n = k + 1 ∧ step s = .next u ∧ runSteps k u = some t := by
  have performs : performsStep s = true := performsStep_iff.mpr run
  cases n with
  | zero => simp [runSteps, performs]
  | succ n => cases h : step s <;> simp [runSteps, performs, h]

/-- Induction on the steps to the end `t` of an invocation, from the end back: what holds of `t`, and of a running state
whenever it holds after its step, holds of every state from which the steps end in `t`. -/
theorem runSteps_induction {P : State → Prop} {t : State} (ended : t.status ≠ .running → P t)
    (stepped : ∀ s u, s.status = .running → step s = .next u → P u → P s) {n : Nat} {s : State}
    (h : runSteps n s = some t) : P s := by
  induction n generalizing s with
  | zero =>
    by_cases run : s.status = .running
    · simp [runSteps_of_running run] at h
    · obtain rfl : s = t := by simpa [runSteps_of_not_running 0 run] using h
      exact ended run
  | succ n ih =>
    by_cases run : s.status = .running
    · obtain ⟨k, u, hk, hu, rest⟩ := (runSteps_of_running run).mp h
      obtain rfl : n = k := by simpa using hk
      exact stepped s u run hu (ih rest)
    · obtain rfl : s = t := by simpa [runSteps_of_not_running (n + 1) run] using h
      exact ended run

/-- The invocation has ended, in one of the three ways of R111. -/
def InvocationEnded (s : State) : Prop := s.status = .halted ∨ s.status = .paused ∨ s.status = .faulted

/-- A running step goes on Running or ends the invocation. -/
theorem step_running_or_ended {s t : State} (run : s.status = .running) (h : step s = .next t) :
    t.status = .running ∨ InvocationEnded t := by
  obtain ⟨e, rfl⟩ | ⟨i, done⟩ := step_next_of_running run h
  · exact .inr (.inr (.inr rfl))
  · obtain same | halted | paused := done.status_cases
    · exact .inl (same.trans run)
    · exact .inr (.inl halted)
    · exact .inr (.inr (.inl paused))

/-- The steps of a running machine end only where the invocation does. -/
theorem runSteps_ended {n : Nat} {s t : State} (run : s.status = .running) (h : runSteps n s = some t) :
    InvocationEnded t :=
  runSteps_induction (P := fun s => s.status = .running ∨ InvocationEnded s → InvocationEnded t)
    (fun ne reached => reached.resolve_left ne)
    (fun _ _ run hu after _ => after (step_running_or_ended run hu)) h (.inl run)

/-- The steps from one state end in one state, however many are allowed. -/
theorem runSteps_unique {m n : Nat} {s t u : State} (ht : runSteps m s = some t) (hu : runSteps n s = some u) :
    u = t := by
  refine runSteps_induction (P := fun s => ∀ n, runSteps n s = some u → u = t) (fun ne n hu => ?_)
    (fun s v run hv after n hu => ?_) ht n hu
  · rw [runSteps_of_not_running n ne] at hu
    exact (Option.some.inj hu).symm
  · obtain ⟨k, w, -, hw, rest⟩ := (runSteps_of_running run).mp hu
    obtain rfl : v = w := by simpa [hv] using hw
    exact after k rest

/-- `run` is accepted in Loaded and Paused, and its steps start where the invocation begins. -/
theorem runInvocation_some {n : Nat} {b : Bool} {s t : State} :
    runInvocation n b s = some t ↔
      (s.status = .loaded ∨ s.status = .paused) ∧ runSteps n (beginInvocation b s) = some t := by
  cases h : s.status <;> simp [runInvocation, hostRun, h]

/-- Settles O50: an invocation begins Running, and its steps end it. -/
theorem invocationEndsInThreeWays : Obligations.InvocationEndsInThreeWays := by
  intro n b s t h
  obtain ⟨-, steps⟩ := runInvocation_some.mp h
  exact runSteps_ended rfl steps

/-- A Loaded or Paused machine has no fault record. -/
theorem Inv.fault_eq_none {s : State} (h : Inv s) (enabled : s.status = .loaded ∨ s.status = .paused) :
    s.fault = none := by
  have record := h.record
  obtain st | st := enabled <;> simpa [st] using record

/-- Settles O51: neither machine has a fault record, so both invocations begin in one state, whose steps end in one
state. -/
theorem invocationEndUnique : Obligations.InvocationEndUnique := by
  intro m b s r t hs hr enabled_s enabled_r mem pc rb inq outq h
  have record : r.fault = s.fault := by rw [hr.fault_eq_none enabled_r, hs.fault_eq_none enabled_s]
  have begun := beginInvocation_congr (b := b) mem pc rb inq outq record
  obtain ⟨-, steps⟩ := runInvocation_some.mp h
  refine ⟨runInvocation_some.mpr ⟨enabled_r, by rwa [begun]⟩, fun n u hu => ?_⟩
  obtain ⟨-, others⟩ := runInvocation_some.mp hu
  rw [begun] at others
  exact runSteps_unique steps others

end Sys2Proof.Machine

/-!
PROOFS of the statements about exceptions (spec 60_exceptions). First the decoder's second error, InvalidMode, on the
word alone; then what a fatal error of a step can be and what its record holds; then the status while Running; then the
queue, by the rules of two machines side by side; and last the host's commands.
-/
namespace Sys2Proof

/-! ### InvalidMode on the word alone -/

/-- The verdict on a list of words is the verdict on the first. -/
theorem decode_error {ws : Words} {x : Illegal} : decode ws = .error x ↔ decodeWord (ws.getD 0 0) = .error x := by
  unfold decode
  cases decodeWord (ws.getD 0 Config.unwrittenCell) <;> simp

/-- A mode digit is accepted exactly when it is legal, or the opcode has no such operand. -/
theorem modeOf_isOk {v k : Nat} {op : Opcode} :
    (∃ m, modeOf v op k = .ok m) ↔ (k < op.operandCount → dig v (2 + k) ≤ 2) := by
  constructor
  · rintro ⟨m, hm⟩ has
    rw [dig_of_modeOf_ok has hm]
    exact m.digit_le
  · intro legal
    cases h : modeOf v op k with
    | ok m => exact ⟨m, rfl⟩
    | error e =>
      obtain ⟨has, illegal, -⟩ := modeOf_error.mp h
      exact absurd (legal has) (Nat.not_le.mpr illegal)

/-- An opcode has at most three operands. -/
theorem Opcode.operandCount_le (op : Opcode) : op.operandCount ≤ 3 := by cases op <;> decide

/-- A word with a legal opcode is refused for the first operand whose mode digit is. -/
theorem decodeWord_error_of_opcode {w : Int} {op : Opcode} {x : Illegal} (nonneg : 0 ≤ w)
    (hop : Opcode.ofNumber? (w.toNat % 100) = some op) :
    decodeWord w = .error x ↔
      ∃ k, modeOf w.toNat op k = .error x ∧ ∀ j < k, ∃ m, modeOf w.toNat op j = .ok m := by
  simp only [decodeWord, Int.not_lt.mpr nonneg, if_false, hop]
  constructor
  · intro h
    cases h0 : modeOf w.toNat op 0 with
    | error e => exact ⟨0, by simpa [h0] using h, nofun⟩
    | ok m0 =>
      cases h1 : modeOf w.toNat op 1 with
      | error e => exact ⟨1, by simpa [h0, h1] using h, fun | 0, _ => ⟨m0, h0⟩⟩
      | ok m1 =>
        cases h2 : modeOf w.toNat op 2 with
        | error e => exact ⟨2, by simpa [h0, h1, h2] using h, fun | 0, _ => ⟨m0, h0⟩ | 1, _ => ⟨m1, h1⟩⟩
        | ok m2 => simp [h0, h1, h2] at h
  · rintro ⟨k, hk, lower⟩
    obtain ⟨has, -⟩ := modeOf_error.mp hk
    match k, has.trans_le op.operandCount_le with
    | 0, _ => simp [hk]
    | 1, _ =>
      obtain ⟨m0, h0⟩ := lower 0 (by decide)
      simp [h0, hk]
    | 2, _ =>
      obtain ⟨m0, h0⟩ := lower 0 (by decide)
      obtain ⟨m1, h1⟩ := lower 1 (by decide)
      simp [h0, h1, hk]

/-- The words the decoder refuses as InvalidMode: not negative, with a legal opcode, and with an illegal digit for the
operand reported and legal ones for the operands below it (R128). -/
theorem decodeWord_invalidMode {w : Int} {k d : Nat} :
    decodeWord w = .error (.invalidMode k d) ↔
      0 ≤ w ∧ d = dig w.toNat (2 + k) ∧ 2 < d ∧ (∀ j < k, dig w.toNat (2 + j) ≤ 2) ∧
        ∃ op, Opcode.ofNumber? (w % 100).toNat = some op ∧ k < op.operandCount := by
  by_cases nonneg : 0 ≤ w
  · have field : (w % 100).toNat = w.toNat % 100 := Int.toNat_emod nonneg (by decide)
    rw [field]
    cases hop : Opcode.ofNumber? (w.toNat % 100) with
    | none => simp [decodeWord_unknownOpcode.mpr (.inr hop)]
    | some op =>
      simp only [decodeWord_error_of_opcode nonneg hop, modeOf_error, modeOf_isOk, nonneg, true_and, Option.some.injEq,
        exists_eq_left', Illegal.invalidMode.injEq]
      constructor
      · rintro ⟨_, ⟨has, illegal, rfl, rfl⟩, lower⟩
        exact ⟨rfl, illegal, fun j lt => lower j lt (lt.trans has), has⟩
      · rintro ⟨rfl, illegal, lower, has⟩
        exact ⟨k, ⟨has, illegal, rfl, rfl⟩, fun j lt _ => lower j lt⟩
  · simp [decodeWord_unknownOpcode.mpr (.inl (Int.not_le.mp nonneg)), nonneg]

end Sys2Proof

namespace Sys2Proof.Machine

/-! ### What a fatal error of a step can be -/

/-- The instruction word is the first of the cells that are decoded. -/
theorem decode_cells_error {s : State} {x : Illegal} :
    decode (Memory.cells s.mem s.pc.toNat 4) = .error x ↔ decodeWord (wordAt s) = .error x := decode_error

/-- The fatal errors of fetch and decode: a negative `pc`, or the decoder's verdict on the word there (R125, 1 to 3). -/
theorem fetchInstr_error {s : State} {e : FatalError} :
    fetchInstr s = .error e ↔ (s.pc < 0 ∧ e = .invalidAddress s.pc .fetch) ∨
      (0 ≤ s.pc ∧ ∃ x, decodeWord (wordAt s) = .error x ∧ e = fatalOf x) := by
  simp only [← decode_cells_error]
  unfold fetchInstr
  by_cases neg : s.pc < 0
  · simp [memRead_error.mpr ⟨neg, rfl⟩, neg, Int.not_le.mpr neg, eq_comm]
  · have nonneg := Int.not_lt.mp neg
    simp only [memRead_ok.mpr ⟨nonneg, rfl⟩, neg, nonneg, Config.maxLength, false_and, false_or, true_and]
    cases decode (Memory.cells s.mem s.pc.toNat 4) <;> simp [eq_comm]

/-- The causes of a fatal error in a running state, in the order of R125: the fetch, the decode, the instruction. -/
inductive Raised (s : State) : FatalError → Prop where
  /-- No word was fetched. -/
  | fetch : s.pc < 0 → Raised s (.invalidAddress s.pc .fetch)
  /-- The word fetched is illegal. -/
  | decode (x : Illegal) : 0 ≤ s.pc → decodeWord (wordAt s) = .error x → Raised s (fatalOf x)
  /-- The instruction decoded raised it. -/
  | exec (e : FatalError) : 0 ≤ s.pc → ExecError e → Raised s e

/-- A running step takes a fatal error that has a cause, or completes the instruction it fetched. -/
theorem step_running_cases {s t : State} (run : s.status = .running) (h : step s = .next t) :
    (∃ e, Raised s e ∧ t = raiseFatal e s) ∨ ∃ i, fetchInstr s = .ok i ∧ Completes s i t := by
  obtain ⟨i, hi, eq⟩ | ⟨e, he, eq⟩ := step_running run <;> rw [eq] at h
  · obtain ⟨e, own, rfl⟩ | done := exec_next h
    · obtain ⟨fetched, -⟩ := fetchInstr_ok.mp hi
      exact .inl ⟨e, .exec e fetched own, rfl⟩
    · exact .inr ⟨i, hi, done⟩
  · cases h
    obtain ⟨neg, rfl⟩ | ⟨fetched, x, illegal, rfl⟩ := fetchInstr_error.mp he
    · exact .inl ⟨_, .fetch neg, rfl⟩
    · exact .inl ⟨_, .decode x fetched illegal, rfl⟩

/-- An instruction that completes in a running machine does not end Faulted. -/
theorem Completes.not_faulted {i : Instr} {s t : State} (done : Completes s i t) (run : s.status = .running) :
    t.status ≠ .faulted := by
  obtain same | halted | paused := done.status_cases
  · simp [same, run]
  · simp [halted]
  · simp [paused]

/-- A running step that ends Faulted took a fatal error that has a cause. -/
theorem step_faulted {s t : State} (run : s.status = .running) (h : step s = .next t) (bad : t.status = .faulted) :
    ∃ e, Raised s e ∧ t = raiseFatal e s := by
  obtain fatal | ⟨i, -, done⟩ := step_running_cases run h
  · exact fatal
  · exact absurd bad (done.not_faulted run)

/-- The kind that the record of a faulting step names has a cause. -/
theorem raised_of_step_record {s t : State} {r : FaultRecord} (run : s.status = .running) (h : step s = .next t)
    (bad : t.status = .faulted) (record : t.fault = some r) : Raised s r.kind := by
  obtain ⟨e, cause, rfl⟩ := step_faulted run h bad
  cases record
  exact cause

/-- Each verdict of the decoder has a fatal error of its own. -/
theorem fatalOf_injective {x y : Illegal} (h : fatalOf x = fatalOf y) : x = y := by
  cases x <;> cases y <;> cases h <;> rfl

/-- A decoder's verdict that is raised was given on the word at `pc`: no instruction raises it, nor does the fetch. -/
theorem Raised.illegal {s : State} {x : Illegal} (cause : Raised s (fatalOf x)) :
    0 ≤ s.pc ∧ decodeWord (wordAt s) = .error x := by
  generalize he : fatalOf x = e at cause
  cases cause with
  | fetch => cases x <;> cases he
  | decode y fetched illegal =>
    obtain rfl : x = y := fatalOf_injective he
    exact ⟨fetched, illegal⟩
  | exec e _ own =>
    subst he
    cases x <;> simp [fatalOf, ExecError] at own

/-- An illegal word makes a running machine take the decoder's verdict, with the word recorded. -/
theorem step_of_illegal {s : State} {x : Illegal} (run : s.status = .running) (fetched : 0 ≤ s.pc)
    (illegal : decodeWord (wordAt s) = .error x) : step s = .next (faultedBy (fatalOf x) (some (wordAt s)) s) := by
  rw [step_eq_raiseFatal run (fetchInstr_error.mpr (.inr ⟨fetched, x, illegal, rfl⟩)),
    raiseFatal_eq_faultedBy _ fetched]

/-- Settles O32: the decoder's verdict is UnknownOpcode for exactly these words, and nothing else raises it. -/
theorem unknownOpcodeRaised : Obligations.UnknownOpcodeRaised := by
  refine ⟨fun s run fetched unknown => ?_, fun s t r run h bad record kind => ?_, rfl⟩
  · exact step_of_illegal run fetched ((unknownOpcodeExactly _).mpr unknown)
  · have cause := raised_of_step_record run h bad record
    rw [kind] at cause
    obtain ⟨fetched, illegal⟩ := Raised.illegal (x := .unknownOpcode) cause
    exact ⟨fetched, (unknownOpcodeExactly _).mp illegal⟩

/-- Settles O33: the decoder's verdict is InvalidMode for exactly these words, and nothing else raises it. -/
theorem invalidModeRaised : Obligations.InvalidModeRaised := by
  refine ⟨fun s op k run fetched nonneg hop has illegal lower => ?_, fun s t r k d run h bad record kind => ?_,
    fun _ _ => rfl⟩
  · exact step_of_illegal run fetched (decodeWord_invalidMode.mpr ⟨nonneg, rfl, illegal, lower, op, hop, has⟩)
  · have cause := raised_of_step_record run h bad record
    rw [kind] at cause
    obtain ⟨fetched, illegal⟩ := Raised.illegal (x := .invalidMode k d) cause
    exact ⟨fetched, decodeWord_invalidMode.mp illegal⟩

/-! ### The fault record -/

/-- There is no instruction word exactly at a negative `pc`. -/
theorem instructionWord_eq_none {s : State} : instructionWord s = none ↔ s.pc < 0 := by simp [instructionWord]

/-- The instruction word is the word at a `pc` that is not negative. -/
theorem instructionWord_eq_some {s : State} {w : Int} : instructionWord s = some w ↔ 0 ≤ s.pc ∧ w = wordAt s := by
  simp [instructionWord, wordAt, eq_comm]

/-- Settles O31: the fetch fails, and with no word there is no opcode field. -/
theorem negativePcFaultsAtFetch : Obligations.NegativePcFaultsAtFetch := by
  intro s run neg
  rw [step_eq_raiseFatal run (fetchInstr_error.mpr (.inl ⟨neg, rfl⟩)), raiseFatal_eq, faultRecord,
    instructionWord_eq_none.mpr neg]
  rfl

/-- The opcode field is that of a word that is not negative. -/
theorem opcodeField_eq_some {word : Option Int} {n : Nat} :
    opcodeField word = some n ↔ ∃ w, word = some w ∧ 0 ≤ w ∧ (n : Int) = w % 100 := by
  cases word with
  | none => simp [opcodeField]
  | some v =>
    by_cases neg : v < 0
    · simp [opcodeField, neg]
    · simp only [opcodeField, neg, if_false, Option.some.injEq, exists_eq_left']
      omega

section
variable (r : FaultRecord)

/-- The record has an address exactly for InvalidAddress (R126). -/
theorem FaultRecord.address?_isSome : r.address?.isSome = true ↔ r.kind.code = 4 := by
  cases h : r.kind <;> simp [FaultRecord.address?, h, FatalError.code]

/-- The record has an access exactly for InvalidAddress (R126). -/
theorem FaultRecord.access?_isSome : r.access?.isSome = true ↔ r.kind.code = 4 := by
  cases h : r.kind <;> simp [FaultRecord.access?, h, FatalError.code]

/-- The record has an operand exactly for InvalidWriteTarget and InvalidMode (R126). -/
theorem FaultRecord.operand?_isSome : r.operand?.isSome = true ↔ r.kind.code = 2 ∨ r.kind.code = 5 := by
  cases h : r.kind <;> simp [FaultRecord.operand?, h, FatalError.code]

/-- The record has a digit exactly for InvalidMode (R126). -/
theorem FaultRecord.digit?_isSome : r.digit?.isSome = true ↔ r.kind.code = 5 := by
  cases h : r.kind <;> simp [FaultRecord.digit?, h, FatalError.code]

end

/-- The record names the address that its InvalidAddress does (R126). -/
theorem FaultRecord.address?_eq_some {r : FaultRecord} {a : Int} :
    r.address? = some a ↔ ∃ x, r.kind = .invalidAddress a x := by
  cases h : r.kind <;> simp [FaultRecord.address?, h]

/-- The record names the access that its InvalidAddress does (R126). -/
theorem FaultRecord.access?_eq_some {r : FaultRecord} {x : Access} :
    r.access? = some x ↔ ∃ a, r.kind = .invalidAddress a x := by
  cases h : r.kind <;> simp [FaultRecord.access?, h]

/-- An InvalidAddress that is raised is for a negative address, and its access is the fetch exactly when `pc` is
negative (R124). -/
theorem Raised.address {s : State} {a : Int} {x : Access} (cause : Raised s (.invalidAddress a x)) :
    a < 0 ∧ (x = .fetch ↔ s.pc < 0) := by
  generalize he : FatalError.invalidAddress a x = e at cause
  cases cause with
  | fetch neg =>
    cases he
    exact ⟨neg, by simp [neg]⟩
  | decode y => cases y <;> cases he
  | exec e fetched own =>
    subst he
    simp only [ExecError, reduceCtorEq, exists_const, FatalError.invalidAddress.injEq, false_or] at own
    obtain ⟨_, i, neg, rfl, rfl⟩ | ⟨_, i, neg, rfl, rfl⟩ := own <;> exact ⟨neg, by simp [fetched]⟩

/-- At a negative `pc` nothing but the fetch is a cause. -/
theorem Raised.of_pc_neg {s : State} {e : FatalError} (cause : Raised s e) (neg : s.pc < 0) :
    e = .invalidAddress s.pc .fetch := by
  cases cause with
  | fetch => rfl
  | decode _ fetched | exec _ fetched => exact absurd neg (Int.not_lt.mpr fetched)

/-- Settles O35: pc, word and opcode are what `faultRecord` reads off the state, and the other fields are the kind's. -/
theorem faultRecordFields : Obligations.FaultRecordFields := by
  intro s t run h bad
  obtain ⟨e, cause, rfl⟩ := step_faulted run h bad
  refine ⟨faultRecord e s, rfl, rfl, ?_, fun w => instructionWord_eq_some.mp, fun n => opcodeField_eq_some,
    FaultRecord.address?_isSome _, FaultRecord.access?_isSome _, fun a address => ?_, FaultRecord.operand?_isSome _,
    FaultRecord.digit?_isSome _⟩
  · rw [FaultRecord.access?_eq_some]
    constructor
    · exact fun absent => ⟨s.pc, cause.of_pc_neg (instructionWord_eq_none.mp absent)⟩
    · rintro ⟨a, rfl : e = _⟩
      obtain ⟨-, at_fetch⟩ := cause.address
      exact instructionWord_eq_none.mpr (at_fetch.mp rfl)
  · obtain ⟨x, rfl : e = _⟩ := FaultRecord.address?_eq_some.mp address
    obtain ⟨neg, -⟩ := cause.address
    exact neg

/-! ### The status while Running -/

/-- Every instruction answers a next state. -/
theorem exec_answers (i : Instr) (s : State) : ∃ t, exec i s = .next t := by
  by_cases halt : i = .hlt
  · exact ⟨_, halt ▸ exec_hlt s⟩
  · rw [exec_eq_finishStep halt]
    cases ruleOf i s.clearFlags with
    | ok u => exact ⟨_, rfl⟩
    | error e => exact ⟨_, rfl⟩

/-- Every step answers a next state. -/
theorem step_answers (s : State) : ∃ t, step s = .next t := by
  by_cases run : s.status = .running
  · obtain ⟨i, -, eq⟩ | ⟨e, -, eq⟩ := step_running run
    · exact eq ▸ exec_answers i s
    · exact ⟨_, eq⟩
  · exact ⟨s, step_not_running run⟩

/-- Only Halt completes Halted. -/
theorem Completes.of_halted {i : Instr} {s t : State} (done : Completes s i t) (run : s.status = .running)
    (halted : t.status = .halted) : i = .hlt := by
  cases done with
  | halt => rfl
  | pause => cases halted
  | store | input | output | jump | pass | adjust => cases run.symm.trans halted

/-- Only an Output with a pause requested completes Paused. -/
theorem Completes.of_paused {i : Instr} {s t : State} (done : Completes s i t) (run : s.status = .running)
    (paused : t.status = .paused) : s.pauseReq = some true ∧ ∃ o, i = .output o ∧ Readable o s := by
  cases done with
  | pause o readable requested => exact ⟨requested, o, rfl, readable⟩
  | halt => cases paused
  | store | input | output | jump | pass | adjust => cases run.symm.trans paused

/-- An instruction that completes leaves the record alone. -/
theorem Completes.fault_eq {i : Instr} {s t : State} (done : Completes s i t) : t.fault = s.fault := by
  cases done <;> rfl

section
variable {s t : State} (run : s.status = .running) (h : step s = .next t)
include run h

/-- A running step ends Halted exactly when it fetched Halt. -/
theorem step_halted_iff : t.status = .halted ↔ fetchInstr s = .ok .hlt := by
  constructor
  · intro halted
    obtain ⟨e, -, rfl⟩ | ⟨i, hi, done⟩ := step_running_cases run h
    · cases halted
    · rwa [done.of_halted run halted] at hi
  · intro fetched
    rw [step_eq_exec run fetched, exec_hlt] at h
    cases h
    rfl

/-- A running step ends Paused exactly when it fetched a readable Output and a pause was requested. -/
theorem step_paused_iff : t.status = .paused ↔
    s.pauseReq = some true ∧ ∃ o, fetchInstr s = .ok (.output o) ∧ Readable o s := by
  constructor
  · intro paused
    obtain ⟨e, -, rfl⟩ | ⟨i, hi, done⟩ := step_running_cases run h
    · cases paused
    · obtain ⟨requested, o, rfl, readable⟩ := done.of_paused run paused
      exact ⟨requested, o, hi, readable⟩
  · rintro ⟨requested, o, fetched, readable⟩
    rw [step_eq_exec run fetched, exec_output_of_readable readable, pauseCheck_eq, if_pos ⟨requested, rfl⟩] at h
    cases h
    rfl

/-- A running step without an earlier record ends Faulted exactly when it leaves one. -/
theorem step_faulted_iff (clean : s.fault = none) : t.status = .faulted ↔ t.fault.isSome = true := by
  obtain ⟨e, -, rfl⟩ | ⟨i, -, done⟩ := step_running_cases run h
  · exact iff_of_true rfl rfl
  · simp [done.not_faulted run, done.fault_eq, clean]

end

/-- Settles O36: each status is read off what the step fetched. -/
theorem runningStepStatus : Obligations.RunningStepStatus := by
  intro s run clean
  obtain ⟨t, h⟩ := step_answers s
  refine ⟨t, h, ?_, ?_, step_faulted_iff run h clean, step_running_or_ended run h⟩
  · rw [step_halted_iff run h, fetchInstr_ok]
  · rw [step_paused_iff run h]
    simp only [fetchInstr_ok]
    constructor
    · rintro ⟨requested, o, ⟨fetched, decoded⟩, readable⟩
      exact ⟨fetched, requested, o, decoded, readable⟩
    · rintro ⟨fetched, requested, o, decoded, readable⟩
      exact ⟨requested, o, ⟨fetched, decoded⟩, readable⟩

/-! ### Values behind the queue -/

/-- The state with the values `q` fed behind what its queue holds. -/
def State.feedAll (q : Words) (s : State) : State := s.setInq (s.inq ++ q)

section
variable (q : Words) {s u : State}

/-- The three-operand shape does not look at the queue. -/
theorem computeToMemory_feedAll {f : Int → Int → Int} {s0 s1 d : Operand} (h : computeToMemory f s0 s1 d s = .ok u) :
    computeToMemory f s0 s1 d (s.feedAll q) = .ok (u.feedAll q) := by
  obtain ⟨a, b, n, ha, hb, addr, nonneg, rfl⟩ := computeToMemory_ok h
  obtain ⟨read0, rfl⟩ := readOperand_ok ha
  obtain ⟨read1, rfl⟩ := readOperand_ok hb
  rw [computeToMemory_of_readable (s := s.feedAll q) read0 read1]
  exact writeOperand_ok.mpr ⟨n, addr, nonneg, rfl⟩

/-- The rule of Input takes the same head, where there is one. -/
theorem takeInput_feedAll {d : Operand} (h : takeInput d s = .ok u) :
    takeInput d (s.feedAll q) = .ok (u.feedAll q) := by
  obtain ⟨v, rest, a, head, addr, nonneg, rfl⟩ := takeInput_ok h
  obtain ⟨n, rfl⟩ := Int.eq_ofNat_of_zero_le nonneg
  have head' : (s.feedAll q).inq = v :: (rest ++ q) := congrArg (· ++ q) head
  exact takeInput_of_target head' addr

/-- The rule of the jumps does not look at the queue. -/
theorem jumpWhen_feedAll {taken : Int → Bool} {c g : Operand} (h : jumpWhen taken c g s = .ok u) :
    jumpWhen taken c g (s.feedAll q) = .ok (u.feedAll q) := by
  obtain ⟨readable, ⟨goes, target, rfl⟩ | ⟨stays, rfl⟩⟩ := jumpWhen_ok h
  · exact jumpWhen_of_taken (s := s.feedAll q) readable goes target
  · exact jumpWhen_of_not_taken (s := u.feedAll q) readable stays

/-- A rule that answers does the same before a longer queue, and leaves the values behind. -/
theorem ruleOf_feedAll {i : Instr} (h : ruleOf i s = .ok u) : ruleOf i (s.feedAll q) = .ok (u.feedAll q) := by
  cases i with
  | add | mul | lt | eq => exact computeToMemory_feedAll q h
  | input => exact takeInput_feedAll q h
  | output o =>
    obtain ⟨readable, rfl⟩ := putOutput_ok h
    exact putOutput_of_readable (s := s.feedAll q) readable
  | jnz | jz => exact jumpWhen_feedAll q h
  | arb o =>
    obtain ⟨readable, rfl⟩ := adjustBase_ok h
    exact adjustBase_of_readable (s := s.feedAll q) readable
  | hlt =>
    cases h
    rfl

/-- The end of a step does not look at the queue. -/
theorem pauseCheck_advance_feedAll (op : Opcode) (s : State) :
    pauseCheck (advance op (s.feedAll q)) = (pauseCheck (advance op s)).feedAll q := by
  have advanced : advance op (s.feedAll q) = (advance op s).feedAll q := by
    rw [advance_eq, advance_eq]
    rfl
  rw [advanced]
  exact (apply_ite (State.feedAll q) _ ((advance op s).endInvocation .paused) (advance op s)).symm

/-- An instruction that does not fault does the same before a longer queue, and leaves the values behind. -/
theorem exec_feedAll {i : Instr} {t : State} (h : exec i s = .next t) (ok : t.status ≠ .faulted) :
    exec i (s.feedAll q) = .next (t.feedAll q) := by
  by_cases halt : i = .hlt
  · subst halt
    rw [exec_hlt] at h
    cases h
    rfl
  · rw [exec_eq_finishStep halt] at h ⊢
    obtain ⟨u, hu, rfl⟩ | ⟨e, -, rfl⟩ := finishStep_next h
    · have cleared : (s.feedAll q).clearFlags = s.clearFlags.feedAll q := rfl
      rw [cleared, ruleOf_feedAll q hu, finishStep, pauseCheck_advance_feedAll]
    · exact absurd rfl ok

end

/-- Settles O44: the fetch does not look at the queue, and a rule that answers takes no more than its head. -/
theorem fedValuesWaitTheirTurn : Obligations.FedValuesWaitTheirTurn := by
  intro s t q run h ok
  have run' : (s.feedAll q).status = .running := run
  obtain ⟨i, hi, eq⟩ | ⟨e, -, eq⟩ := step_running run <;> rw [eq] at h
  · exact (step_eq_exec run' (i := i) hi).trans (exec_feedAll q h ok)
  · cases h
    exact absurd rfl ok

/-! ### The host's commands -/

/-- Settles O47: `run` is accepted in both statuses and then begins the invocation. -/
theorem runBeginsInvocation : Obligations.RunBeginsInvocation :=
  fun _ _ enabled => hostRun_next.mpr ⟨enabled, rfl⟩

/-- Settles O48: both commands are accepted outside Running, and `drain` answers the sink as it was. -/
theorem feedAndDrain : Obligations.FeedAndDrain :=
  fun _ _ ne => ⟨hostFeed_next.mpr ⟨ne, rfl⟩, hostDrain_next.mpr ⟨ne, rfl⟩, rfl⟩

section
variable {s : State}

/-- `load` is refused outside Idle (R138). -/
theorem hostLoad_refused (p : Words) (ne : s.status ≠ .idle) :
    hostLoad p s = .refused (.commandNotEnabled (.load p) s.status) := by
  unfold hostLoad
  split
  · exact absurd ‹_› ne
  · rfl

/-- `patch` is refused outside Loaded (R138). -/
theorem hostPatch_refused (a v : Int) (ne : s.status ≠ .loaded) :
    hostPatch a v s = .refused (.commandNotEnabled (.patch a v) s.status) := by
  unfold hostPatch
  split
  · exact absurd ‹_› ne
  · rfl

/-- `run` is refused outside Loaded and Paused (R138). -/
theorem hostRun_refused (b : Bool) (ne_loaded : s.status ≠ .loaded) (ne_paused : s.status ≠ .paused) :
    hostRun b s = .refused (.commandNotEnabled (.run b) s.status) := by
  unfold hostRun
  split
  · exact absurd ‹_› ne_loaded
  · exact absurd ‹_› ne_paused
  · rfl

/-- While Running every command but reset is refused (R137, R138). -/
theorem hostCommand_refused_of_running {c : Command} (run : s.status = .running) (ne : c ≠ .reset) :
    hostCommand c s = .refused (.commandNotEnabled c .running) := by
  cases c with
  | reset => exact absurd rfl ne
  | load p => exact run ▸ hostLoad_refused p (by simp [run])
  | patch a v => exact run ▸ hostPatch_refused a v (by simp [run])
  | run b => exact run ▸ hostRun_refused b (by simp [run]) (by simp [run])
  | feed v => simp [hostCommand, hostFeed, run]
  | drain => simp [hostCommand, hostDrain, run]
  | inspect => simp [hostCommand, hostInspect, run]

end

/-- Settles O49: one refusal for each command that only some statuses enable, and one for Running. -/
theorem disabledCommandsRefused : Obligations.DisabledCommandsRefused :=
  fun _ => ⟨hostLoad_refused, hostPatch_refused, hostRun_refused, fun _ => hostCommand_refused_of_running⟩

/-- Inspection is accepted outside Running, and changes nothing. -/
theorem hostInspect_next {s t : State} : hostInspect s = .next t ↔ s.status ≠ .running ∧ t = s := by
  cases h : s.status <;> simp [hostInspect, h, eq_comm]

/-- A host command in a Halted or Faulted state that is not reset is refused or moves the streams only. -/
theorem hostCommand_of_terminal {c : Command} {s t : State} (terminal : s.status = .halted ∨ s.status = .faulted)
    (ne : c ≠ .reset) (h : hostCommand c s = .next t) :
    t.status = s.status ∧ t.mem = s.mem ∧ t.pc = s.pc ∧ t.rb = s.rb ∧ t.fault = s.fault := by
  cases c with
  | reset => exact absurd rfl ne
  | load p =>
    obtain ⟨idle, -⟩ := hostLoad_next.mp h
    simp [idle] at terminal
  | patch a v =>
    obtain ⟨loaded, -⟩ := hostPatch_next.mp h
    simp [loaded] at terminal
  | run b =>
    obtain ⟨loaded | paused, -⟩ := hostRun_next.mp h
    · simp [loaded] at terminal
    · simp [paused] at terminal
  | feed v =>
    obtain ⟨-, rfl⟩ := hostFeed_next.mp h
    exact ⟨rfl, rfl, rfl, rfl, rfl⟩
  | drain =>
    obtain ⟨-, rfl⟩ := hostDrain_next.mp h
    exact ⟨rfl, rfl, rfl, rfl, rfl⟩
  | inspect =>
    obtain ⟨-, rfl⟩ := hostInspect_next.mp h
    exact ⟨rfl, rfl, rfl, rfl, rfl⟩

/-- Settles O37: no step is performed outside Running, and the commands that change more than the streams are
refused. -/
theorem terminalStatusStays : Obligations.TerminalStatusStays := by
  intro s t terminal
  refine ⟨fun h => ?_, fun c ne h => hostCommand_of_terminal terminal ne h⟩
  have stopped : s.status ≠ .running := by obtain st | st := terminal <;> simp [st]
  rw [step_not_running stopped] at h
  cases h
  rfl

/-! ### The invariant under the host's commands -/

/-- `load` keeps the invariant: in Idle nothing has run. -/
theorem hostLoad_inv {p : Words} {s t : State} (h : Inv s) (load : hostLoad p s = .next t) : Inv t := by
  obtain ⟨st, rfl⟩ := hostLoad_next.mp load
  obtain ⟨-, -, -, sink, jflag, oflag⟩ := h.idle st
  have arg := h.invocation
  have record := h.record
  simp only [st, reduceCtorEq, iff_false] at arg record
  exact
    { memory := Memory.writeList_wf h.memory 0 p
      invocation := iff_of_false arg nofun
      record := iff_of_false record nofun
      stopped := fun r hr => absurd (congrArg Option.isSome hr) record
      flags := h.flags
      idle := nofun
      loaded := fun _ => ⟨rfl, rfl, sink, jflag, oflag⟩
      paused := nofun }

/-- A machine whose memory alone is changed, outside Idle, keeps the invariant with a memory in canonical form. -/
theorem setMem_inv {s : State} (h : Inv s) (ne : s.status ≠ .idle) {m : Memory} (wf : Memory.wf m = true) :
    Inv (s.setMem m) where
  memory := wf
  invocation := h.invocation
  record := h.record
  stopped := h.stopped
  flags := h.flags
  idle st := absurd st ne
  loaded := h.loaded
  paused := h.paused

/-- `patch` keeps the invariant. -/
theorem hostPatch_inv {a v : Int} {s t : State} (h : Inv s) (patch : hostPatch a v s = .next t) : Inv t := by
  obtain ⟨st, rfl⟩ := hostPatch_next.mp patch
  split_ifs
  · exact h
  · exact setMem_inv h (by simp [st]) (Memory.write_wf h.memory a.toNat v)

/-- `run` keeps the invariant: a Loaded or Paused machine has no record. -/
theorem hostRun_inv {b : Bool} {s t : State} (h : Inv s) (run : hostRun b s = .next t) : Inv t := by
  obtain ⟨enabled, rfl⟩ := hostRun_next.mp run
  exact inv_of_no_fault h.memory (h.fault_eq_none enabled) (by simp [beginInvocation]) (.inl ⟨rfl, rfl⟩)

/-- The invariant says nothing of the queue. -/
theorem setInq_inv {s : State} (h : Inv s) (q : Words) : Inv (s.setInq q) :=
  ⟨h.memory, h.invocation, h.record, h.stopped, h.flags, h.idle, h.loaded, h.paused⟩

/-- The invariant asks of the sink at most that it is empty. -/
theorem setOutq_nil_inv {s : State} (h : Inv s) : Inv (s.setOutq []) where
  memory := h.memory
  invocation := h.invocation
  record := h.record
  stopped := h.stopped
  flags := h.flags
  idle st := by
    obtain ⟨mem, pc, rb, -, flags⟩ := h.idle st
    exact ⟨mem, pc, rb, rfl, flags⟩
  loaded st := by
    obtain ⟨pc, rb, -, flags⟩ := h.loaded st
    exact ⟨pc, rb, rfl, flags⟩
  paused := h.paused

/-- Settles O41: command by command. -/
theorem commandKeepsInvariant : Obligations.CommandKeepsInvariant := by
  intro c s t h command
  cases c with
  | reset =>
    cases command
    exact resetIsInvariant
  | load p => exact hostLoad_inv h command
  | patch a v => exact hostPatch_inv h command
  | run b => exact hostRun_inv h command
  | feed v =>
    obtain ⟨-, rfl⟩ := hostFeed_next.mp command
    exact setInq_inv h _
  | drain =>
    obtain ⟨-, rfl⟩ := hostDrain_next.mp command
    exact setOutq_nil_inv h
  | inspect =>
    obtain ⟨-, rfl⟩ := hostInspect_next.mp command
    exact h

end Sys2Proof.Machine

/-!
PROOFS of the statements about reset, `load` and `patch` (spec 70_reset_and_hazards), with what a cell reads as after a
list of words is stored; and of the decoder's fixed words.
-/
namespace Sys2Proof.Machine

/-! ### Storing a list of words -/

/-- Storing a list of words leaves the cells below its first address as they were. -/
theorem Memory.read_writeList_below (m : Memory) {a b : Nat} (ws : Words) (lt : b < a) :
    Memory.read (Memory.writeList m a ws) b = Memory.read m b := by
  induction ws generalizing m a with
  | nil => rfl
  | cons w ws ih => exact (ih _ (by omega)).trans (Memory.read_write_ne m w (by omega))

/-- From its first address on, a list of words stored in a canonical memory is read back word by word, and the cells
above it are as they were. -/
theorem Memory.read_writeList {m : Memory} (canonical : Memory.wf m = true) (a k : Nat) (ws : Words) :
    Memory.read (Memory.writeList m a ws) (a + k) = ws.getD k (Memory.read m (a + k)) := by
  induction ws generalizing m a k with
  | nil => rfl
  | cons w ws ih =>
    cases k with
    | zero =>
      exact (Memory.read_writeList_below _ ws (by omega)).trans (Memory.read_write_eq_from canonical a w)
    | succ k =>
      have tail := ih (Memory.write_wf canonical a w) (a + 1) k
      rw [Memory.read_write_ne m w (by omega), Nat.add_right_comm] at tail
      exact tail

/-! ### Reset, load and patch -/

/-- Settles O38: reset discards the state it finds, and the empty memory reads 0. -/
theorem resetValues : Obligations.ResetValues :=
  ⟨Memory.read_nil, rfl, rfl, rfl, rfl, rfl, rfl, rfl, rfl, rfl, fun _ => rfl⟩

/-- Settles O45: in Idle the memory that the program is stored in is empty, by the invariant. -/
theorem loadPlacesProgram : Obligations.LoadPlacesProgram := by
  intro p s inv st
  obtain ⟨empty, -⟩ := inv.idle st
  refine ⟨_, hostLoad_next.mpr ⟨st, rfl⟩, rfl, rfl, rfl, rfl, rfl, rfl, fun a => ?_⟩
  have unwritten : Memory.read s.mem a = 0 := by rw [empty, Memory.read_nil]
  have stored := Memory.read_writeList inv.memory 0 a p
  rwa [Nat.zero_add, unwritten] at stored

/-- Settles O46: the sign of the address decides both what is stored and what the host is given. -/
theorem patchStoresOneCell : Obligations.PatchStoresOneCell := by
  intro a v s st
  constructor
  · intro nonneg
    have not_neg : ¬a < 0 := Int.not_lt.mpr nonneg
    exact ⟨hostPatch_next.mpr ⟨st, (if_neg not_neg).symm⟩, if_neg not_neg⟩
  · intro neg
    exact ⟨hostPatch_next.mpr ⟨st, (if_pos neg).symm⟩, if_pos neg⟩

end Sys2Proof.Machine

namespace Sys2Proof

/-! ### The decoder on fixed words -/

/-- Settles O1: the decoder is run on each of the words. -/
theorem specWordsDecode : Obligations.SpecWordsDecode := by
  unfold Obligations.SpecWordsDecode
  decide

end Sys2Proof
